-- ==== Sys2Proof/Word.lean ====
section
/-! DEFINITION. The word type and the widths of an instruction's fields (spec 00_scope.md R8, R10, R11; 30_encoding.md R100). -/

namespace Sys2Proof

/-- A register, a memory word, an instruction word or a datapath value: `XLEN` = 32 bits (R8). `+` and `-` wrap
modulo 2^32 and `~~~`, `&&&` act on all bits, which is R11's `s32` of the mathematical result. -/
abbrev Word := BitVec 32

/-- A register index, a 3-bit field; all eight values are valid (R105). -/
abbrev RegIdx := BitVec 3

/-- The 10-bit `opcode` field (R100). -/
abbrev OpField := BitVec 10

/-- The 16-bit `fieldC` (R100). -/
abbrev CField := BitVec 16

/-- `s32(v)`: the 32-bit two's-complement word congruent to `v` modulo 2^32 (R11). -/
def s32 (v : Int) : Word := BitVec.ofInt 32 v

end Sys2Proof
end

