-- ==== Sys2Proof/Config.lean ====
section
/-! DEFINITION. What is fixed when the core is built: the numbers of spec 00_scope.md R8 and the three named parameters of R9. -/

namespace Sys2Proof.Config

/-- Words in the instruction memory and in the data memory (R8 `MEMSIZE`). -/
def memSize : Nat := 65536

/-- The no-op sentinel word that every bubble holds, `7 << 22` (30_encoding.md R109). -/
def noopWord : Word := 0x01C00000

/-- Which register fields of the consumer the load-use detector compares (R9 `STALL_SOURCES`, decision D5). -/
inductive StallSources where
  /-- The fields the opcode reads (30_encoding.md R112): the default. -/
  | used
  /-- `fieldA` and `fieldB` of every word, whatever its opcode. -/
  | fields
  deriving DecidableEq, Repr

/-- The build parameters that R9 leaves open, constant for a machine (10_state.md R55). -/
structure Params where
  /-- `STALL_SOURCES` (decision D5). -/
  stallSources : StallSources
  /-- `FWD_LOAD_OVERRIDE` (decision D7): a load in MEM/WB or WB/END overrides a younger ALU producer. -/
  fwdLoadOverride : Bool
  /-- `FETCH_COUNT_ON_STALL` (decision D8): a stall cycle increments `fetched`. -/
  fetchCountOnStall : Bool
  deriving DecidableEq, Repr

/-- The defaults of R9: the hardware as the spec decides it. -/
def Params.default : Params :=
  { stallSources := .used, fwdLoadOverride := false, fetchCountOnStall := false }

end Sys2Proof.Config
end

