-- ==== Sys2Proof/Syntax.lean ====
section
/-! DEFINITION. The instructions: one constructor per row of spec/opcode_table.json (30_encoding.md R107). A constructor
carries every field of the word, the ignored ones too (R103): the pipeline latches keep the whole word, `fault_instr`
shows it, and under `STALL_SOURCES = fields` ignored fields can stall (R112). -/

namespace Sys2Proof

/-- An instruction of the pipeline-simulator ISA. -/
inductive Instr where
  /-- Opcode 0, `ADD` (R200): sources `fA`, `fB`, destination `fC[2:0]`. -/
  | add (fA fB : RegIdx) (fC : CField)
  /-- Opcode 1, `NAND` (R202): sources `fA`, `fB`, destination `fC[2:0]`. -/
  | nand (fA fB : RegIdx) (fC : CField)
  /-- Opcode 2, `LW` (R220): destination `fA`, base `fB`, signed offset `fC`. -/
  | lw (fA fB : RegIdx) (fC : CField)
  /-- Opcode 3, `SW` (R222): data `fA`, base `fB`, signed offset `fC`. -/
  | sw (fA fB : RegIdx) (fC : CField)
  /-- Opcode 4, `BEQ` (R240): compared `fA`, `fB`, signed offset `fC`. -/
  | beq (fA fB : RegIdx) (fC : CField)
  /-- Opcode 5, `JALR` (R243): unimplemented, every field ignored. -/
  | jalr (fA fB : RegIdx) (fC : CField)
  /-- Opcode 6, `HALT` (R245): every field ignored. -/
  | halt (fA fB : RegIdx) (fC : CField)
  /-- Opcode 7, `NOOP` (R247): every field ignored. -/
  | noop (fA fB : RegIdx) (fC : CField)
  /-- An unrecognized opcode, "data" (R249): the table's row where word bit 31 is the highest set bit of bits 31..25. -/
  | data31 (op : OpField) (fA fB : RegIdx) (fC : CField)
  /-- "data" (R249): word bit 30 is the highest set bit of bits 31..25. -/
  | data30 (op : OpField) (fA fB : RegIdx) (fC : CField)
  /-- "data" (R249): word bit 29 is the highest set bit of bits 31..25. -/
  | data29 (op : OpField) (fA fB : RegIdx) (fC : CField)
  /-- "data" (R249): word bit 28 is the highest set bit of bits 31..25. -/
  | data28 (op : OpField) (fA fB : RegIdx) (fC : CField)
  /-- "data" (R249): word bit 27 is the highest set bit of bits 31..25. -/
  | data27 (op : OpField) (fA fB : RegIdx) (fC : CField)
  /-- "data" (R249): word bit 26 is the highest set bit of bits 31..25. -/
  | data26 (op : OpField) (fA fB : RegIdx) (fC : CField)
  /-- "data" (R249): word bit 25 is the highest set bit of bits 31..25, opcodes 8 to 15. -/
  | data25 (op : OpField) (fA fB : RegIdx) (fC : CField)
  deriving DecidableEq, Repr

end Sys2Proof
end

