-- ==== Sys2Proof/WellFormed.lean ====
section
/-! DEFINITION. Which terms of `Instr` stand for a word. The fields of `ADD` to `NOOP` are as wide as the encoding, so those
terms always do; a "data" term's opcode must be the one its row of spec/opcode_table.json fixes (R107, R249). -/

namespace Sys2Proof

/-- The opcode's highest set bit is bit `k` (word bit `k + 22`): the fixed bits of a "data" row of the table. -/
def topBitIs (op : OpField) (k : Nat) : Bool := op.toNat / 2 ^ k == 1

/-- The term stands for a word. -/
def Instr.wf : Instr → Bool
  | .add _ _ _ => true
  | .nand _ _ _ => true
  | .lw _ _ _ => true
  | .sw _ _ _ => true
  | .beq _ _ _ => true
  | .jalr _ _ _ => true
  | .halt _ _ _ => true
  | .noop _ _ _ => true
  | .data31 op _ _ _ => topBitIs op 9
  | .data30 op _ _ _ => topBitIs op 8
  | .data29 op _ _ _ => topBitIs op 7
  | .data28 op _ _ _ => topBitIs op 6
  | .data27 op _ _ _ => topBitIs op 5
  | .data26 op _ _ _ => topBitIs op 4
  | .data25 op _ _ _ => topBitIs op 3

end Sys2Proof
end

