-- ==== Sys2Proof/Decode.lean ====
section
/-! DEFINITION. The instruction codec (spec 30_encoding.md R100 to R109): field extractors, the total decoder, the encoder,
sign extension, and the disassembly mnemonics. No word is rejected (R106, R113). -/

namespace Sys2Proof

/-- `op(w) = w[31:22]`, unsigned (R101). -/
def opOf (w : Word) : OpField := w.extractLsb' 22 10

/-- `fA(w) = w[21:19]` (R102). -/
def fAOf (w : Word) : RegIdx := w.extractLsb' 19 3

/-- `fB(w) = w[18:16]` (R102). -/
def fBOf (w : Word) : RegIdx := w.extractLsb' 16 3

/-- `fC(w) = w[15:0]` (R102). -/
def fCOf (w : Word) : CField := w.extractLsb' 0 16

/-- `isOpcode(w, k)` (R106). -/
def isOpcode (w : Word) (k : OpField) : Bool := opOf w == k

/-- `zext(c)`: `c` as a non-negative integer (00_scope.md R12). -/
def zext (c : CField) : Word := c.setWidth 32

/-- `sext16(c)`: `c` if `c[15] = 0`, else `c - 65536`, as a 32-bit word (00_scope.md R12). -/
def sext16 (c : CField) : Word :=
  if c.getLsbD 15 then s32 ((c.toNat : Int) - 65536) else s32 c.toNat

/-- The R-type destination register, `fC[2:0]` (R103); bits 15..3 are ignored. -/
def destField (fC : CField) : RegIdx := fC.extractLsb' 0 3

/-- The assembly of a word from its four fields (R100). -/
def joinFields (op : OpField) (fA fB : RegIdx) (fC : CField) : Word :=
  (op.setWidth 32 <<< 22) ||| (fA.setWidth 32 <<< 19) ||| (fB.setWidth 32 <<< 16) ||| zext fC

/-- The opcode map (R107): which instruction an opcode value selects, with the word's other fields. The "data" rows are
those of spec/opcode_table.json, by the highest set bit. -/
def ofFields (op : OpField) (fA fB : RegIdx) (fC : CField) : Instr :=
  if op = 0#10 then .add fA fB fC
  else if op = 1#10 then .nand fA fB fC
  else if op = 2#10 then .lw fA fB fC
  else if op = 3#10 then .sw fA fB fC
  else if op = 4#10 then .beq fA fB fC
  else if op = 5#10 then .jalr fA fB fC
  else if op = 6#10 then .halt fA fB fC
  else if op = 7#10 then .noop fA fB fC
  else if topBitIs op 9 then .data31 op fA fB fC
  else if topBitIs op 8 then .data30 op fA fB fC
  else if topBitIs op 7 then .data29 op fA fB fC
  else if topBitIs op 6 then .data28 op fA fB fC
  else if topBitIs op 5 then .data27 op fA fB fC
  else if topBitIs op 4 then .data26 op fA fB fC
  else .data25 op fA fB fC

/-- Decoding is total: every 32-bit word is an instruction (R106). -/
def decode (w : Word) : Instr := ofFields (opOf w) (fAOf w) (fBOf w) (fCOf w)

/-- The opcode value of an instruction (R107). -/
def Instr.opcode : Instr → OpField
  | .add _ _ _ => 0#10
  | .nand _ _ _ => 1#10
  | .lw _ _ _ => 2#10
  | .sw _ _ _ => 3#10
  | .beq _ _ _ => 4#10
  | .jalr _ _ _ => 5#10
  | .halt _ _ _ => 6#10
  | .noop _ _ _ => 7#10
  | .data31 op _ _ _ => op
  | .data30 op _ _ _ => op
  | .data29 op _ _ _ => op
  | .data28 op _ _ _ => op
  | .data27 op _ _ _ => op
  | .data26 op _ _ _ => op
  | .data25 op _ _ _ => op

/-- `fieldA` of an instruction. -/
def Instr.fA : Instr → RegIdx
  | .add a _ _ => a
  | .nand a _ _ => a
  | .lw a _ _ => a
  | .sw a _ _ => a
  | .beq a _ _ => a
  | .jalr a _ _ => a
  | .halt a _ _ => a
  | .noop a _ _ => a
  | .data31 _ a _ _ => a
  | .data30 _ a _ _ => a
  | .data29 _ a _ _ => a
  | .data28 _ a _ _ => a
  | .data27 _ a _ _ => a
  | .data26 _ a _ _ => a
  | .data25 _ a _ _ => a

/-- `fieldB` of an instruction. -/
def Instr.fB : Instr → RegIdx
  | .add _ b _ => b
  | .nand _ b _ => b
  | .lw _ b _ => b
  | .sw _ b _ => b
  | .beq _ b _ => b
  | .jalr _ b _ => b
  | .halt _ b _ => b
  | .noop _ b _ => b
  | .data31 _ _ b _ => b
  | .data30 _ _ b _ => b
  | .data29 _ _ b _ => b
  | .data28 _ _ b _ => b
  | .data27 _ _ b _ => b
  | .data26 _ _ b _ => b
  | .data25 _ _ b _ => b

/-- `fieldC` of an instruction. -/
def Instr.fC : Instr → CField
  | .add _ _ c => c
  | .nand _ _ c => c
  | .lw _ _ c => c
  | .sw _ _ c => c
  | .beq _ _ c => c
  | .jalr _ _ c => c
  | .halt _ _ c => c
  | .noop _ _ c => c
  | .data31 _ _ _ c => c
  | .data30 _ _ _ c => c
  | .data29 _ _ _ c => c
  | .data28 _ _ _ c => c
  | .data27 _ _ _ c => c
  | .data26 _ _ _ c => c
  | .data25 _ _ _ c => c

/-- The word of an instruction (R100). -/
def encode (i : Instr) : Word := joinFields i.opcode i.fA i.fB i.fC

/-- The instruction the decoder reads from an instruction of `nbits` bits `w`. Every instruction is exactly one 32-bit
word, the unit of memory (R100, R114), so bits are numbered as the table numbers them and every bit above `nbits` is 0. -/
def decodeTableWord (nbits w : Nat) : Option Instr :=
  some (decode (BitVec.ofNat 32 (w % 2 ^ nbits)))

/-- The disassembly mnemonic (R117). -/
def Instr.mnemonic : Instr → String
  | .add _ _ _ => "add"
  | .nand _ _ _ => "nand"
  | .lw _ _ _ => "lw"
  | .sw _ _ _ => "sw"
  | .beq _ _ _ => "beq"
  | .jalr _ _ _ => "jalr"
  | .halt _ _ _ => "halt"
  | .noop _ _ _ => "noop"
  | .data31 _ _ _ _ => "data"
  | .data30 _ _ _ _ => "data"
  | .data29 _ _ _ _ => "data"
  | .data28 _ _ _ _ => "data"
  | .data27 _ _ _ _ => "data"
  | .data26 _ _ _ _ => "data"
  | .data25 _ _ _ _ => "data"

end Sys2Proof
end

