-- ==== Sys2Proof/Machine/State.lean ====
section
/-! DEFINITION. The machine's state as plain data (spec 10_state.md), the reasons a step could stop, and the state after
reset (R56). -/

namespace Sys2Proof.Machine

open Sys2Proof.Config

/-- One listed memory word: its address, an index (20_memory.md R70), and the 32-bit word there. The hardware has no
bytes (R73), so the smallest addressable unit is the word (log 7). -/
abbrev WordCell := Nat × Word

/-- A memory of 65536 words: the words that differ from what an unlisted address reads as, addresses strictly rising. -/
abbrev Memory := List WordCell

/-- The register file `reg[0]` to `reg[7]` (R30). No register is hardwired (R31). -/
abbrev RegFile := Vector Word 8

/-- The instruction field of a latch (R40). -/
inductive Slot where
  /-- A fetched word, or `NOOP_WORD`. -/
  | word (w : Word)
  /-- The fetch-fault tag `FF(a)`: the slot was fetched at `a`, outside instruction memory. -/
  | ff (a : Word)
  deriving DecidableEq, Repr

/-- The slot of a bubble (30_encoding.md R109). -/
def Slot.bubble : Slot := .word noopWord

/-- IF/ID (R41). -/
structure IFID where
  instr : Slot
  pcPlus1 : Word
  deriving DecidableEq, Repr

/-- ID/EX (R42). -/
structure IDEX where
  instr : Slot
  pcPlus1 : Word
  readRegA : Word
  readRegB : Word
  offset : Word
  deriving DecidableEq, Repr

/-- EX/MEM (R43). -/
structure EXMEM where
  instr : Slot
  branchTarget : Word
  aluResult : Word
  storeData : Word
  deriving DecidableEq, Repr

/-- MEM/WB (R44). -/
structure MEMWB where
  instr : Slot
  writeData : Word
  deriving DecidableEq, Repr

/-- WB/END (R45). -/
structure WBEND where
  instr : Slot
  writeData : Word
  deriving DecidableEq, Repr

/-- A bubble in IF/ID (40_pipeline.md R147; also the reset value, R47). -/
def IFID.bubble : IFID := { instr := .bubble, pcPlus1 := 0 }

/-- A bubble in ID/EX. -/
def IDEX.bubble : IDEX := { instr := .bubble, pcPlus1 := 0, readRegA := 0, readRegB := 0, offset := 0 }

/-- A bubble in EX/MEM (also the stall's, R141). -/
def EXMEM.bubble : EXMEM := { instr := .bubble, branchTarget := 0, aluResult := 0, storeData := 0 }

/-- A bubble in MEM/WB. -/
def MEMWB.bubble : MEMWB := { instr := .bubble, writeData := 0 }

/-- A bubble in WB/END. -/
def WBEND.bubble : WBEND := { instr := .bubble, writeData := 0 }

/-- The run state (R51). -/
inductive Run where
  | running
  | halted
  | faulted
  deriving DecidableEq, Repr

/-- The two fatal causes, each with the info it records (60_exceptions.md R301). -/
inductive Fatal where
  /-- Code 1: an LW or SW whose effective address `addr` is outside data memory, with its instruction word. -/
  | memBounds (addr instr : Word)
  /-- Code 2: the slot fetched at `addr`, outside instruction memory, reached MEM/WB. -/
  | fetchOutOfRange (addr : Word)
  deriving DecidableEq, Repr

/-- The fault record `{cause, info, cycle}` (R51, R302). -/
structure FaultRecord where
  info : Fatal
  cycle : Word
  deriving DecidableEq, Repr

/-- Which slot acts: the clock's check of MEM/WB before a cycle (40_pipeline.md R132, R133), or one of the five stages
(R131). Five instructions act in one cycle; this says about which of its turns `exec` is asked (log 1, log 2). -/
inductive Stage where
  | clock
  | fetch
  | decode
  | execute
  | memory
  | writeback
  deriving DecidableEq, Repr

/-- The state `S` at a cycle boundary (10_state.md), and at the end three fields of the model's own: the `rst` input, the
build parameters and the turn `exec` is asked about. -/
structure State where
  /-- `reg[0..7]` (R30). -/
  regs : RegFile
  /-- The word address of the next instruction to fetch (R34). -/
  pc : Word
  /-- Instruction memory (R37). -/
  imem : Memory
  /-- Data memory (R38). -/
  dmem : Memory
  /-- The five latches (R41 to R45). -/
  ifid : IFID
  idex : IDEX
  exmem : EXMEM
  memwb : MEMWB
  wbend : WBEND
  /-- The five counters (R48). -/
  cycles : Word
  fetched : Word
  retired : Word
  notTaken : Word
  mispred : Word
  /-- The run state and the fault record (R51). -/
  run : Run
  fault : Option FaultRecord
  /-- The model's own: the input port `rst` at the coming clock edge (60_exceptions.md R311; log 3). -/
  rst : Bool
  /-- The model's own: the build parameters (00_scope.md R9; log 4). No rule writes them. -/
  params : Params
  /-- The model's own: the turn `exec` is asked about (log 2). -/
  stage : Stage
  deriving DecidableEq, Repr

/-- Why a step could stop outside the spec's run states: never. The spec's two fatal conditions have a described effect,
the FAULTED run state with its record (60_exceptions.md R302), so they are next states (log 6), and the spec gives every
other case an effect. With no constructor, that no step faults needs no proof. Safe. -/
inductive Fault where
  deriving DecidableEq, Repr

/-- Why an instruction could have no meaning. -/
inductive Refusal where
  /-- Raised by `exec` for an instruction with no meaning yet: no arm raises it. Safe. -/
  | notModelled (mnemonic : String)
  deriving DecidableEq, Repr

/-- The machine right after reset (R56): `rst` released, nothing loaded (70_reset_and_hazards.md R340 does not write the
memories; every word not loaded is 0, R39), and the default parameters. -/
def State.reset : State :=
  { regs := Vector.replicate 8 0
    pc := 0
    imem := []
    dmem := []
    ifid := .bubble
    idex := .bubble
    exmem := .bubble
    memwb := .bubble
    wbend := .bubble
    cycles := 0
    fetched := 0
    retired := 0
    notTaken := 0
    mispred := 0
    run := .running
    fault := none
    rst := false
    params := .default
    stage := .fetch }

end Sys2Proof.Machine
end

