-- ==== Sys2Proof/Machine/Ops.lean ====
section
/-! DEFINITION. The named operations over registers and memories, the entry of a fatal fault, reset, and the host's load
(spec 10_state.md, 20_memory.md R70 to R84, 60_exceptions.md R301, R302, R310, 70_reset_and_hazards.md R340). -/

namespace Sys2Proof.Machine

open Sys2Proof.Config

/-- The outcome of a step or of an instruction's turn. -/
abbrev Result := Host.Outcome State Fault Refusal

/-- Go on from a next state; a stop stays the stop it is. -/
def andThen (r : Result) (k : State → Result) : Result :=
  match r with
  | .next s => k s
  | .fault f => .fault f
  | .refused f => .refused f

/-! ### Registers -/

/-- Read `reg[r]` (R32). Every register holds what was written to it, `r0` too (R31). -/
def RegFile.read (regs : RegFile) (r : RegIdx) : Word := regs[r.toNat]

/-- Write `reg[r]` (R32). -/
def RegFile.write (regs : RegFile) (r : RegIdx) (v : Word) : RegFile := regs.set r.toNat v

/-- Write a destination register, if there is one (40_pipeline.md R150). -/
def RegFile.writeDest (regs : RegFile) (dest : Option RegIdx) (v : Word) : RegFile :=
  match dest with
  | some r => regs.write r v
  | none => regs

/-! ### Memories -/

/-- What an address that no cell lists reads as: the content of every word the host did not load and no store wrote
(R39, decision D11; log 8). -/
def Memory.unlisted : Word := 0

/-- The word at address `a` (R82). -/
def Memory.read (m : Memory) (a : Nat) : Word :=
  match m with
  | [] => Memory.unlisted
  | (b, v) :: rest => if a = b then v else Memory.read rest a

/-- A cell in front of a memory, or none where the word is what an unlisted address reads as. -/
def Memory.cons (a : Nat) (v : Word) (m : Memory) : Memory :=
  if v = Memory.unlisted then m else (a, v) :: m

/-- Write the word at address `a` (R82), in canonical form. -/
def Memory.write (m : Memory) (a : Nat) (v : Word) : Memory :=
  match m with
  | [] => Memory.cons a v []
  | (b, x) :: rest =>
    if a < b then Memory.cons a v ((b, x) :: rest)
    else if a = b then Memory.cons a v rest
    else (b, x) :: Memory.write rest a v

/-- The canonical form from address `lo` on: addresses strictly rising and below `MEMSIZE`, no cell equal to what an
unlisted address reads as. -/
def Memory.wfFrom (lo : Nat) (m : Memory) : Bool :=
  match m with
  | [] => true
  | (a, v) :: rest => decide (lo ≤ a) && decide (a < memSize) && decide (v ≠ Memory.unlisted) && Memory.wfFrom (a + 1) rest

/-- The canonical form. -/
def Memory.wf (m : Memory) : Bool := Memory.wfFrom 0 m

/-- An image placed from address `at` on (60_exceptions.md R310). -/
def Memory.ofImageFrom (base : Nat) : List Word → Memory
  | [] => []
  | v :: rest => Memory.cons base v (Memory.ofImageFrom (base + 1) rest)

/-- Word `i` of the image at address `i`, every other word 0 (R39, R310). -/
def Memory.ofImage (img : List Word) : Memory := Memory.ofImageFrom 0 img

/-- `0 <= a < MEMSIZE`, the address read as a signed word (20_memory.md R80, R81). -/
def inRange (a : Word) : Bool := decide (0 ≤ a.toInt) && decide (a.toInt < memSize)

/-- `IMemRead(a)` (R82); asked only for an address in range (R81). -/
def State.imemRead (s : State) (a : Word) : Word := Memory.read s.imem a.toNat

/-- `DMemRead(a, 1)` (R82); asked only for an address in range (R80). -/
def State.dmemRead (s : State) (a : Word) : Word := Memory.read s.dmem a.toNat

/-- `DMemWrite(a, 1, v)` (R82); asked only for an address in range (R80). -/
def State.dmemWrite (s : State) (a v : Word) : State := { s with dmem := Memory.write s.dmem a.toNat v }

/-! ### Run state -/

/-- `raise Fatal(cause, info)` (60_exceptions.md R302), applied to the snapshot: nothing of the cycle is committed, the
core enters FAULTED and records the cause and the cycle. -/
def State.raiseFatal (s : State) (info : Fatal) : State :=
  { s with run := .faulted, fault := some { info := info, cycle := s.cycles } }

/-- A clock edge with `rst` asserted (70_reset_and_hazards.md R340): every piece of state takes its reset value, but for
the memories, which reset does not write. The input, the parameters and `stage` are not the core's state. -/
def State.resetEdge (s : State) : State :=
  { State.reset with imem := s.imem, dmem := s.dmem, rst := s.rst, params := s.params, stage := s.stage }

/-! ### The host (60_exceptions.md R310, R311) -/

/-- The host drives the `rst` input. -/
def State.withRst (s : State) (level : Bool) : State := { s with rst := level }

/-- The machine built with other parameters (00_scope.md R9). -/
def State.withParams (s : State) (p : Params) : State := { s with params := p }

/-- The host's load (R310): the image into both memories, while reset is held; the image has at most `MEMSIZE` words
(20_memory.md R79). `none` where the host may not load. -/
def State.loadImage (s : State) (img : List Word) : Option State :=
  if s.rst && decide (img.length ≤ memSize) then
    some { s with imem := Memory.ofImage img, dmem := Memory.ofImage img }
  else none

/-- The machine at its first cycle, the image loaded and reset released (R310, R340). -/
def State.boot (img : List Word) : State :=
  { State.reset with imem := Memory.ofImage img, dmem := Memory.ofImage img }

/-- The host's read of data memory, only while the core is not running (R311). -/
def State.hostReadDmem (s : State) (a : Nat) : Option Word :=
  if (s.rst || decide (s.run ≠ .running)) && decide (a < memSize) then some (Memory.read s.dmem a) else none

end Sys2Proof.Machine
end

