-- ==== Sys2Proof/Machine/Operands.lean ====
section
/-! DEFINITION. Operands: the destination and source registers of an instruction (spec 30_encoding.md R111, R112), operand
forwarding (40_pipeline.md R143, R144), the addressing mode (42_loadstore.md R224) and the load-use detector (R138). -/

namespace Sys2Proof.Machine

open Sys2Proof.Config

/-- `dest(w)` (R111): the register the instruction writes, for writeback, forwarding and stall matching alike
(decision D6). -/
def destOf : Instr → Option RegIdx
  | .add _ _ fC => some (destField fC)
  | .nand _ _ fC => some (destField fC)
  | .lw fA _ _ => some fA
  | .sw _ _ _ => none
  | .beq _ _ _ => none
  | .jalr _ _ _ => none
  | .halt _ _ _ => none
  | .noop _ _ _ => none
  | .data31 _ _ _ _ => none
  | .data30 _ _ _ _ => none
  | .data29 _ _ _ _ => none
  | .data28 _ _ _ _ => none
  | .data27 _ _ _ _ => none
  | .data26 _ _ _ _ => none
  | .data25 _ _ _ _ => none

/-- The registers the opcode reads: `srcs(w)` under `STALL_SOURCES = used` (R112). -/
def usedSrcs : Instr → List RegIdx
  | .add fA fB _ => [fA, fB]
  | .nand fA fB _ => [fA, fB]
  | .lw _ fB _ => [fB]
  | .sw fA fB _ => [fA, fB]
  | .beq fA fB _ => [fA, fB]
  | .jalr _ _ _ => []
  | .halt _ _ _ => []
  | .noop _ _ _ => []
  | .data31 _ _ _ _ => []
  | .data30 _ _ _ _ => []
  | .data29 _ _ _ _ => []
  | .data28 _ _ _ _ => []
  | .data27 _ _ _ _ => []
  | .data26 _ _ _ _ => []
  | .data25 _ _ _ _ => []

/-- `srcs(w)` under either reading of `STALL_SOURCES` (R112, decision D5). -/
def srcsOf (p : Params) (i : Instr) : List RegIdx :=
  match p.stallSources with
  | .used => usedSrcs i
  | .fields => [i.fA, i.fB]

/-- `dest` of a latch slot; a fetch-fault tag has none (R40, R111). -/
def Slot.dest : Slot → Option RegIdx
  | .word w => destOf (decode w)
  | .ff _ => none

/-- `srcs` of a latch slot; a fetch-fault tag has none (R40, R112). -/
def Slot.srcs (p : Params) : Slot → List RegIdx
  | .word w => srcsOf p (decode w)
  | .ff _ => []

/-- `op(slot) == LW`. -/
def Slot.isLw : Slot → Bool
  | .word w => isOpcode w 2#10
  | .ff _ => false

/-- `op(slot) == SW`. -/
def Slot.isSw : Slot → Bool
  | .word w => isOpcode w 3#10
  | .ff _ => false

/-- `op(slot) == BEQ`. -/
def Slot.isBeq : Slot → Bool
  | .word w => isOpcode w 4#10
  | .ff _ => false

/-- `op(slot) == HALT`. -/
def Slot.isHalt : Slot → Bool
  | .word w => isOpcode w 6#10
  | .ff _ => false

/-- `fieldA` of a slot; a fetch-fault tag has no fields. -/
def Slot.fieldA : Slot → Option RegIdx
  | .word w => some (fAOf w)
  | .ff _ => none

/-- `fieldB` of a slot. -/
def Slot.fieldB : Slot → Option RegIdx
  | .word w => some (fBOf w)
  | .ff _ => none

/-- The register that `slot` loads: `fA` of an LW. -/
def Slot.loads (slot : Slot) (r : RegIdx) : Bool := slot.isLw && decide (slot.fieldA = some r)

/-- Forwarding, the youngest matching producer first (R143). -/
def State.fwdYoungest (s : State) (r : RegIdx) (raw : Word) : Word :=
  if s.exmem.instr.dest = some r then s.exmem.aluResult
  else if s.memwb.instr.dest = some r then s.memwb.writeData
  else if s.wbend.instr.dest = some r then s.wbend.writeData
  else raw

/-- Forwarding where a load in MEM/WB or WB/END overrides (R144). -/
def State.fwdOverride (s : State) (r : RegIdx) (raw : Word) : Word :=
  if s.memwb.instr.loads r then s.memwb.writeData
  else if s.wbend.instr.loads r then s.wbend.writeData
  else s.fwdYoungest r raw

/-- The forwarding unit under `FWD_LOAD_OVERRIDE` (R143, R144). -/
def State.fwd (s : State) (r : RegIdx) (raw : Word) : Word :=
  if s.params.fwdLoadOverride then s.fwdOverride r raw else s.fwdYoungest r raw

/-- An operand of a slot in execute: its register's forwarded value; a slot with no fields matches no producer and keeps
the value decode left (log 10). -/
def State.operand (s : State) (field : Option RegIdx) (raw : Word) : Word :=
  match field with
  | some r => s.fwd r raw
  | none => raw

/-- Operand A of the instruction in ID/EX (30_encoding.md R105). -/
def State.operandA (s : State) (slot : Slot) : Word := s.operand slot.fieldA s.idex.readRegA

/-- Operand B of the instruction in ID/EX (R105). -/
def State.operandB (s : State) (slot : Slot) : Word := s.operand slot.fieldB s.idex.readRegB

/-- The effective address of LW and SW: base plus sign-extended offset (R224). -/
def effectiveAddress (base offset : Word) : Word := base + offset

/-- The load-use detector for a slot in execute: EX/MEM holds an LW whose destination the slot reads (R138). -/
def State.stallFor (s : State) (slot : Slot) : Bool :=
  s.exmem.instr.isLw &&
    (match s.exmem.instr.dest with
     | some r => (slot.srcs s.params).contains r
     | none => false)

/-- `stall`, the combinational signal of the cycle (R138). -/
def State.stall (s : State) : Bool := s.stallFor s.idex.instr

end Sys2Proof.Machine
end

