-- ==== Sys2Proof/Machine/Flags.lean ====
section
/-! DEFINITION. The core has no status flags (spec 10_state.md R52). The one condition it forms is BEQ's zero test, inside
the instruction, and nothing records it. -/

namespace Sys2Proof.Machine

/-- BEQ's test of the ALU difference: zero means equal (40_pipeline.md R140, R147). -/
def zeroTest (difference : Word) : Bool := difference == 0

/-- A branch is taken in this cycle: EX/MEM holds a BEQ whose difference is zero (R147). -/
def State.taken (s : State) : Bool := s.exmem.instr.isBeq && zeroTest s.exmem.aluResult

end Sys2Proof.Machine
end

