-- ==== Sys2Proof/Machine/Stages.lean ====
section
/-! DEFINITION. What a slot does in each of its turns (spec 40_pipeline.md R132 to R150). Each operation reads the
snapshot it is given and answers that snapshot with the writes of this one turn; Machine/Pipeline.lean puts the turns of a
cycle together (R131). `slot` is the occupant of the stage: the latch's instruction field. -/

namespace Sys2Proof.Machine

/-- The latch slot of an instruction. -/
def slotOf (i : Instr) : Slot := .word (encode i)

/-! ### Clock -/

/-- A HALT in MEM/WB stops the core before the cycle runs (R132). -/
def haltClock (s : State) : State := { s with run := .halted }

/-! ### Fetch -/

/-- FETCH (R134, R136): the slot enters IF/ID, and the pc and `fetched` advance by 1. -/
def fetchStage (slot : Slot) (s : State) : State :=
  { s with
    ifid := { instr := slot, pcPlus1 := s.pc + 1 }
    pc := s.pc + 1
    fetched := s.fetched + 1 }

/-! ### Decode -/

/-- DECODE (R137): read `reg[fA]` and `reg[fB]` of every word and its sign-extended `fC`; a fetch-fault tag reads 0. -/
def decodeStage (slot : Slot) (s : State) : State :=
  { s with
    idex :=
      match slot with
      | .word w =>
        { instr := slot
          pcPlus1 := s.ifid.pcPlus1
          readRegA := s.regs.read (fAOf w)
          readRegB := s.regs.read (fBOf w)
          offset := sext16 (fCOf w) }
      | .ff _ => { instr := slot, pcPlus1 := s.ifid.pcPlus1, readRegA := 0, readRegB := 0, offset := 0 } }

/-! ### Execute -/

/-- The stall action (R141): a bubble enters EX/MEM and the provisional retired delta falls by 1; the pc, IF/ID, ID/EX and
`fetched` are held, as they are in the snapshot. -/
def stallAction (s : State) : State := { s with exmem := .bubble, retired := s.retired - 1 }

/-- EXECUTE (R140, R141): `alu` takes operand A, operand B and the offset. -/
def executeStage (slot : Slot) (alu : Word → Word → Word → Word) (s : State) : State :=
  if s.stallFor slot then stallAction s
  else
    { s with
      exmem :=
        { instr := slot
          branchTarget := s.idex.pcPlus1 + s.idex.offset
          aluResult := alu (s.operandA slot) (s.operandB slot) s.idex.offset
          storeData := s.operandA slot } }

/-- The ALU of an opcode without an ALU operation (R140, decision D15). -/
def aluNone (_ _ _ : Word) : Word := 0

/-- The ALU of LW and SW (R140, R220, R222). -/
def aluAddress (_ b offset : Word) : Word := effectiveAddress b offset

/-! ### Memory -/

/-- The slot moves on to MEM/WB with `value` (R145). -/
def toMemwb (slot : Slot) (value : Word) (s : State) : State :=
  { s with memwb := { instr := slot, writeData := value } }

/-- MEMORY of an opcode that makes no access: the ALU result passes through (R145). -/
def memoryPass (slot : Slot) (s : State) : State := toMemwb slot s.exmem.aluResult s

/-- MEMORY of the LW with word `w` (R145, R146). -/
def memoryLoad (w : Word) (s : State) : State :=
  if inRange s.exmem.aluResult then toMemwb (.word w) (s.dmemRead s.exmem.aluResult) s
  else s.raiseFatal (.memBounds s.exmem.aluResult w)

/-- MEMORY of the SW with word `w` (R145, R146); its `writeData` is the address (decision D28). -/
def memoryStore (w : Word) (s : State) : State :=
  if inRange s.exmem.aluResult then
    toMemwb (.word w) s.exmem.aluResult (s.dmemWrite s.exmem.aluResult s.exmem.storeData)
  else s.raiseFatal (.memBounds s.exmem.aluResult w)

/-- A taken branch (R147): redirect the pc, flush IF/ID, ID/EX and EX/MEM, count the misprediction, and take 3 from the
provisional retired delta. -/
def flush (s : State) : State :=
  { s with
    pc := s.exmem.branchTarget
    ifid := .bubble
    idex := .bubble
    exmem := .bubble
    mispred := s.mispred + 1
    retired := s.retired - 3 }

/-- MEMORY of a BEQ: pass the difference through, then flush (R147) or count the branch not taken (R148). -/
def memoryBranch (slot : Slot) (s : State) : State :=
  let passed := memoryPass slot s
  if zeroTest s.exmem.aluResult then flush passed else { passed with notTaken := s.notTaken + 1 }

/-! ### Writeback -/

/-- WRITEBACK (R150): write the destination register, if any; the slot moves on to WB/END; every occupant adds 1 to the
provisional retired delta. -/
def writebackStage (slot : Slot) (dest : Option RegIdx) (s : State) : State :=
  { s with
    regs := s.regs.writeDest dest s.memwb.writeData
    wbend := { instr := slot, writeData := s.memwb.writeData }
    retired := s.retired + 1 }

/-! ### Slots with no effect -/

/-- The turns of an instruction with no effect (43_control.md R243, R245, R247, R249): it flows through, and reaches no
register, memory word or pc. -/
def noEffect (slot : Slot) (s : State) : State :=
  match s.stage with
  | .clock => s
  | .fetch => fetchStage slot s
  | .decode => decodeStage slot s
  | .execute => executeStage slot aluNone s
  | .memory => memoryPass slot s
  | .writeback => writebackStage slot none s

/-- The turns of the fetch-fault tag `FF(a)` (R133, R135): it flows through as an instruction with no effect, and faults
the core when the clock finds it in MEM/WB. -/
def ffTurn (a : Word) (s : State) : State :=
  match s.stage with
  | .clock => s.raiseFatal (.fetchOutOfRange a)
  | .fetch => noEffect (.ff a) s
  | .decode => noEffect (.ff a) s
  | .execute => noEffect (.ff a) s
  | .memory => noEffect (.ff a) s
  | .writeback => noEffect (.ff a) s

/-- The slot fetch reads (R134, R135): the word at the pc, or the tag where the pc is outside instruction memory. -/
def State.fetchSlot (s : State) : Slot := if inRange s.pc then .word (s.imemRead s.pc) else .ff s.pc

end Sys2Proof.Machine
end

