-- ==== Sys2Proof/Machine/Alu.lean ====
section
/-! DEFINITION. ADD and NAND (spec 41_alu.md R200 to R204). A meaning says what its instruction does in the turn that
`stage` names, as the rule's own table of stages does. -/

namespace Sys2Proof.Machine

/-- ADD (R200, R201): `reg[fC[2:0]] <- s32(a + b)`. -/
def execAdd (fA fB : RegIdx) (fC : CField) (s : State) : Result :=
  let slot := slotOf (.add fA fB fC)
  .next (match s.stage with
    | .clock => s
    | .fetch => fetchStage slot s
    | .decode => decodeStage slot s
    | .execute => executeStage slot (fun a b _ => a + b) s
    | .memory => memoryPass slot s
    | .writeback => writebackStage slot (some (destField fC)) s)

/-- NAND (R202, R203): `reg[fC[2:0]] <- ~(a & b)`. -/
def execNand (fA fB : RegIdx) (fC : CField) (s : State) : Result :=
  let slot := slotOf (.nand fA fB fC)
  .next (match s.stage with
    | .clock => s
    | .fetch => fetchStage slot s
    | .decode => decodeStage slot s
    | .execute => executeStage slot (fun a b _ => ~~~(a &&& b)) s
    | .memory => memoryPass slot s
    | .writeback => writebackStage slot (some (destField fC)) s)

end Sys2Proof.Machine
end

