-- ==== Sys2Proof/Machine/Control.lean ====
section
/-! DEFINITION. BEQ, JALR, HALT, NOOP and the unrecognized opcodes (spec 43_control.md R240 to R249). -/

namespace Sys2Proof.Machine

/-- BEQ (R240 to R242): the difference decides in the memory stage; the target is own address + 1 + sext16 fC. -/
def execBeq (fA fB : RegIdx) (fC : CField) (s : State) : Result :=
  let slot := slotOf (.beq fA fB fC)
  .next (match s.stage with
    | .clock => s
    | .fetch => fetchStage slot s
    | .decode => decodeStage slot s
    | .execute => executeStage slot (fun a b _ => a - b) s
    | .memory => memoryBranch slot s
    | .writeback => writebackStage slot none s)

/-- JALR (R243, R244): unimplemented, a no-op, not a jump-and-link. -/
def execJalr (fA fB : RegIdx) (fC : CField) (s : State) : Result :=
  .next (noEffect (slotOf (.jalr fA fB fC)) s)

/-- HALT (R245, R246): no effect in any stage; the clock that finds it in MEM/WB stops the core (R132). -/
def execHalt (fA fB : RegIdx) (fC : CField) (s : State) : Result :=
  .next (match s.stage with
    | .clock => haltClock s
    | .fetch => noEffect (slotOf (.halt fA fB fC)) s
    | .decode => noEffect (slotOf (.halt fA fB fC)) s
    | .execute => noEffect (slotOf (.halt fA fB fC)) s
    | .memory => noEffect (slotOf (.halt fA fB fC)) s
    | .writeback => noEffect (slotOf (.halt fA fB fC)) s)

/-- NOOP (R247): no effect; a bubble is one (30_encoding.md R110). -/
def execNoop (fA fB : RegIdx) (fC : CField) (s : State) : Result :=
  .next (noEffect (slotOf (.noop fA fB fC)) s)

/-- An unrecognized opcode with word bit 31 set (R249). -/
def execData31 (op : OpField) (fA fB : RegIdx) (fC : CField) (s : State) : Result :=
  .next (noEffect (slotOf (.data31 op fA fB fC)) s)

/-- An unrecognized opcode, highest set bit 30 (R249). -/
def execData30 (op : OpField) (fA fB : RegIdx) (fC : CField) (s : State) : Result :=
  .next (noEffect (slotOf (.data30 op fA fB fC)) s)

/-- An unrecognized opcode, highest set bit 29 (R249). -/
def execData29 (op : OpField) (fA fB : RegIdx) (fC : CField) (s : State) : Result :=
  .next (noEffect (slotOf (.data29 op fA fB fC)) s)

/-- An unrecognized opcode, highest set bit 28 (R249). -/
def execData28 (op : OpField) (fA fB : RegIdx) (fC : CField) (s : State) : Result :=
  .next (noEffect (slotOf (.data28 op fA fB fC)) s)

/-- An unrecognized opcode, highest set bit 27 (R249). -/
def execData27 (op : OpField) (fA fB : RegIdx) (fC : CField) (s : State) : Result :=
  .next (noEffect (slotOf (.data27 op fA fB fC)) s)

/-- An unrecognized opcode, highest set bit 26 (R249). -/
def execData26 (op : OpField) (fA fB : RegIdx) (fC : CField) (s : State) : Result :=
  .next (noEffect (slotOf (.data26 op fA fB fC)) s)

/-- An unrecognized opcode, highest set bit 25: opcodes 8 to 15 (R249). -/
def execData25 (op : OpField) (fA fB : RegIdx) (fC : CField) (s : State) : Result :=
  .next (noEffect (slotOf (.data25 op fA fB fC)) s)

end Sys2Proof.Machine
end

