-- ==== Sys2Proof/Machine/LoadStore.lean ====
section
/-! DEFINITION. LW and SW (spec 42_loadstore.md R220 to R224). The base is `reg[fB]`; `fA` is LW's destination and SW's
data (90_conflicts.md C1). -/

namespace Sys2Proof.Machine

/-- LW (R220, R221): `reg[fA] <- DMEM[s32(b + sext16 fC)]`. -/
def execLw (fA fB : RegIdx) (fC : CField) (s : State) : Result :=
  let i := Instr.lw fA fB fC
  .next (match s.stage with
    | .clock => s
    | .fetch => fetchStage (slotOf i) s
    | .decode => decodeStage (slotOf i) s
    | .execute => executeStage (slotOf i) aluAddress s
    | .memory => memoryLoad (encode i) s
    | .writeback => writebackStage (slotOf i) (some fA) s)

/-- SW (R222, R223): `DMEM[s32(b + sext16 fC)] <- a`. -/
def execSw (fA fB : RegIdx) (fC : CField) (s : State) : Result :=
  let i := Instr.sw fA fB fC
  .next (match s.stage with
    | .clock => s
    | .fetch => fetchStage (slotOf i) s
    | .decode => decodeStage (slotOf i) s
    | .execute => executeStage (slotOf i) aluAddress s
    | .memory => memoryStore (encode i) s
    | .writeback => writebackStage (slotOf i) none s)

end Sys2Proof.Machine
end

