-- ==== Sys2Proof/Machine/Dispatch.lean ====
section
/-! DEFINITION. One arm per instruction: what the instruction does in the turn that the state's `stage` names. -/

namespace Sys2Proof.Machine

def exec (i : Instr) (s : State) : Host.Outcome State Fault Refusal :=
  match i with
  | .add fA fB fC => Sys2Proof.Machine.execAdd fA fB fC s
  | .nand fA fB fC => Sys2Proof.Machine.execNand fA fB fC s
  | .lw fA fB fC => Sys2Proof.Machine.execLw fA fB fC s
  | .sw fA fB fC => Sys2Proof.Machine.execSw fA fB fC s
  | .beq fA fB fC => Sys2Proof.Machine.execBeq fA fB fC s
  | .jalr fA fB fC => Sys2Proof.Machine.execJalr fA fB fC s
  | .halt fA fB fC => Sys2Proof.Machine.execHalt fA fB fC s
  | .noop fA fB fC => Sys2Proof.Machine.execNoop fA fB fC s
  | .data31 op fA fB fC => Sys2Proof.Machine.execData31 op fA fB fC s
  | .data30 op fA fB fC => Sys2Proof.Machine.execData30 op fA fB fC s
  | .data29 op fA fB fC => Sys2Proof.Machine.execData29 op fA fB fC s
  | .data28 op fA fB fC => Sys2Proof.Machine.execData28 op fA fB fC s
  | .data27 op fA fB fC => Sys2Proof.Machine.execData27 op fA fB fC s
  | .data26 op fA fB fC => Sys2Proof.Machine.execData26 op fA fB fC s
  | .data25 op fA fB fC => Sys2Proof.Machine.execData25 op fA fB fC s

end Sys2Proof.Machine
end

