-- ==== Sys2Proof/Machine/Pipeline.lean ====
section
/-! DEFINITION. The cycle (spec 40_pipeline.md R130, R131): the turns of a cycle's slots, all taken from one snapshot, and
the next state they make together. -/

namespace Sys2Proof.Machine

/-- The turn `turn` of the occupant `slot`, from the snapshot `s`: the instruction the word decodes to, or the
fetch-fault tag. `stage` itself is left as it was. -/
def runSlot (turn : Stage) (slot : Slot) (s : State) : Result :=
  match slot with
  | .word w => andThen (exec (decode w) { s with stage := turn }) fun t => .next { t with stage := s.stage }
  | .ff a => .next { ffTurn a { s with stage := turn } with stage := s.stage }

/-- The next state `N` of a cycle (R131, R151, R152) from the snapshot `s` and what fetch, decode, execute, memory and
writeback made of it: each field of `N` is a multiplexer with priority flush over stall over the stage's own value, and
the changes of `retired` add up to the provisional delta. A fault in the memory stage commits nothing else
(60_exceptions.md R302). -/
def commit (s f d e m w : State) : State :=
  if m.run = .faulted then m
  else
    { s with
      regs := w.regs
      pc := if s.taken then m.pc else if s.stall then e.pc else f.pc
      dmem := m.dmem
      ifid := if s.taken then m.ifid else if s.stall then e.ifid else f.ifid
      idex := if s.taken then m.idex else if s.stall then e.idex else d.idex
      exmem := if s.taken then m.exmem else e.exmem
      memwb := m.memwb
      wbend := w.wbend
      cycles := s.cycles + 1
      fetched := if s.stall && !s.params.fetchCountOnStall then e.fetched else f.fetched
      retired := s.retired + (e.retired - s.retired) + (m.retired - s.retired) + (w.retired - s.retired)
      notTaken := m.notTaken
      mispred := m.mispred }

/-- The five stages of a cycle that runs (R130), every one from the snapshot `s`. -/
def runStages (s : State) : Result :=
  andThen (runSlot .fetch s.fetchSlot s) fun f =>
  andThen (runSlot .decode s.ifid.instr s) fun d =>
  andThen (runSlot .execute s.idex.instr s) fun e =>
  andThen (runSlot .memory s.exmem.instr s) fun m =>
  andThen (runSlot .writeback s.memwb.instr s) fun w =>
  .next (commit s f d e m w)

/-- One cycle of a running core (R130): the clock's check of MEM/WB, and, where it does not stop the core, the stages. -/
def cycle (s : State) : Result :=
  andThen (runSlot .clock s.memwb.instr s) fun c =>
  if c.run = .running then runStages s else .next c

/-- One rising edge of `clk` (60_exceptions.md R311): reset where `rst` is asserted (70_reset_and_hazards.md R340), a cycle
where the core is running, and nothing in HALTED and FAULTED (R303). -/
def clockEdge (s : State) : Result :=
  if s.rst then .next s.resetEdge
  else if s.run = .running then cycle s
  else .next s

/-- The instruction memory with the word `w` where the next fetch reads it. -/
def placeWord (s : State) (w : Word) : State :=
  if inRange s.pc then { s with imem := Memory.write s.imem s.pc.toNat w } else s

end Sys2Proof.Machine
end

