-- ==== Sys2Proof/Machine/Step.lean ====
section
/-! DEFINITION. The step: one clock cycle (spec 00_scope.md R7, 40_pipeline.md R130). -/

namespace Sys2Proof.Machine

/-- One step is one rising edge of the clock. -/
def step (s : State) : Host.Outcome State Fault Refusal := clockEdge s

/-- `s` with the instruction of `nbits` bits `w` where fetch reads its next word: the instruction memory at the pc. -/
def State.withFetchWord (s : State) (nbits w : Nat) : State :=
  placeWord s (BitVec.ofNat 32 (w % 2 ^ nbits))

end Sys2Proof.Machine
end

