-- ==== Sys2Proof/Machine/Asm.lean ====
section
/-! DEFINITION. The assembler syntax the spec writes instructions in (spec 30_encoding.md R115, R116, decision D19). The
core reads words only; this says which instruction each line of syntax is. -/

namespace Sys2Proof.Machine.Asm

/-- `off & 0xFFFF` (R115). -/
def offset (off : Int) : CField := BitVec.ofInt 16 off

/-- `add rD, rA, rB`. -/
def add (rD rA rB : RegIdx) : Instr := .add rA rB (rD.setWidth 16)

/-- `nand rD, rA, rB`. -/
def nand (rD rA rB : RegIdx) : Instr := .nand rA rB (rD.setWidth 16)

/-- `lw rA, off(rB)`. -/
def lw (rA : RegIdx) (off : Int) (rB : RegIdx) : Instr := .lw rA rB (offset off)

/-- `sw rA, off(rB)`. -/
def sw (rA : RegIdx) (off : Int) (rB : RegIdx) : Instr := .sw rA rB (offset off)

/-- `beq rA, rB, off`. -/
def beq (rA rB : RegIdx) (off : Int) : Instr := .beq rA rB (offset off)

/-- `jalr rA, rB`. -/
def jalr (rA rB : RegIdx) : Instr := .jalr rA rB 0

/-- `halt`. -/
def halt : Instr := .halt 0 0 0

/-- `noop`. -/
def noop : Instr := .noop 0 0 0

/-- `.fill v`: the word `v`, which executes per its opcode if fetched. -/
def fill (v : Int) : Instr := decode (s32 v)

/-- The branch offset that the label of address `target` stands for in a `beq` at `own` (R116). -/
def labelOffset (target own : Int) : Int := target - (own + 1)

end Sys2Proof.Machine.Asm
end

