-- ==== Sys2Proof/Machine/Ports.lean ====
section
/-! DEFINITION. The core's output ports as functions of the committed state (spec 20_memory.md R88, 60_exceptions.md R301,
R311). The outputs have no effect on the core. -/

namespace Sys2Proof.Machine

open Sys2Proof.Config

/-- A fetch-fault tag (10_state.md R40). -/
def Slot.isTag : Slot → Bool
  | .word _ => false
  | .ff _ => true

/-- The coming edge runs a cycle's stages: reset released, RUNNING, and neither a HALT nor a fetch-fault tag in MEM/WB
(40_pipeline.md R130). -/
def State.cycleRuns (s : State) : Bool :=
  !s.rst && decide (s.run = .running) && !s.memwb.instr.isHalt && !s.memwb.instr.isTag

/-- An LW or SW is in EX/MEM. -/
def State.accesses (s : State) : Bool := s.exmem.instr.isLw || s.exmem.instr.isSw

/-- The code of a fatal cause (R301, decision D26). -/
def Fatal.code : Fatal → BitVec 2
  | .memBounds _ _ => 1
  | .fetchOutOfRange _ => 2

/-- The recorded address (R301). -/
def Fatal.addr : Fatal → Word
  | .memBounds a _ => a
  | .fetchOutOfRange a => a

/-- The recorded instruction word: of the LW or SW for `MemBounds`, 0 otherwise (R311). -/
def Fatal.instr : Fatal → Word
  | .memBounds _ w => w
  | .fetchOutOfRange _ => 0

/-- The latches as `trace_latch` shows them (R311). -/
structure TraceLatch where
  ifid : IFID
  idex : IDEX
  exmem : EXMEM
  memwb : MEMWB
  wbend : WBEND
  deriving DecidableEq, Repr

/-- The control and observation outputs (R311). -/
structure Outputs where
  halted : Bool
  faulted : Bool
  faultCause : BitVec 2
  faultAddr : Word
  faultInstr : Word
  faultCycle : Word
  cycles : Word
  fetched : Word
  retired : Word
  notTaken : Word
  mispred : Word
  tracePc : Word
  traceReg : RegFile
  traceLatch : TraceLatch
  deriving DecidableEq, Repr

/-- What the outputs show of a state (R311). With no fault record, `fault_cause` is 0 (R301) and the record's other ports
show 0 (log 19). -/
def State.outputs (s : State) : Outputs :=
  { halted := decide (s.run = .halted)
    faulted := decide (s.run = .faulted)
    faultCause := match s.fault with | some r => r.info.code | none => 0
    faultAddr := match s.fault with | some r => r.info.addr | none => 0
    faultInstr := match s.fault with | some r => r.info.instr | none => 0
    faultCycle := match s.fault with | some r => r.cycle | none => 0
    cycles := s.cycles
    fetched := s.fetched
    retired := s.retired
    notTaken := s.notTaken
    mispred := s.mispred
    tracePc := s.pc
    traceReg := s.regs
    traceLatch := { ifid := s.ifid, idex := s.idex, exmem := s.exmem, memwb := s.memwb, wbend := s.wbend } }

/-- The memory ports (R88), with the words the memories answer. -/
structure MemoryPorts where
  imemAddr : Word
  imemEn : Bool
  imemRdata : Word
  dmemAddr : BitVec 16
  dmemRe : Bool
  dmemWe : Bool
  dmemWdata : Word
  dmemRdata : Word
  deriving DecidableEq, Repr

/-- The memory ports in the cycle that begins with a state (R88). DESIGN CHOICE (log 19): where the pc is outside memory,
R82 gives `IMEM[imem_addr]` no value and `imem_en` is 0; `imemRdata` shows 0 there. -/
def State.memoryPorts (s : State) : MemoryPorts :=
  { imemAddr := s.pc
    imemEn := inRange s.pc && s.cycleRuns
    imemRdata := s.imemRead s.pc
    dmemAddr := s.exmem.aluResult.extractLsb' 0 16
    dmemRe := s.exmem.instr.isLw && inRange s.exmem.aluResult
    dmemWe := s.exmem.instr.isSw && inRange s.exmem.aluResult
    dmemWdata := s.exmem.storeData
    dmemRdata := Memory.read s.dmem (s.exmem.aluResult.extractLsb' 0 16).toNat }

end Sys2Proof.Machine
end

