-- ==== Sys2Proof/Safety.lean ====
section
/-! DEFINITION. What claims say about a run: which cycles commit, the invariant of a state, a safe state, what a program can
observe of the latches (spec 40_pipeline.md R130, R154, R155; 10_state.md R40, R51). -/

namespace Sys2Proof.Machine

/-- The memory stage of this cycle raises `MemBounds` (R146). -/
def State.memFaults (s : State) : Bool := s.accesses && !inRange s.exmem.aluResult

/-- The coming edge commits a cycle: its stages run and none raises a fault (R151). -/
def State.commits (s : State) : Bool := s.cycleRuns && !s.memFaults

/-- A safe state: the core has not met a fatal condition. -/
def State.safe (s : State) : Bool := decide (s.run ≠ .faulted)

/-- A fetch-fault tag names an address outside instruction memory (R40, R135). -/
def Slot.tagOk : Slot → Bool
  | .word _ => true
  | .ff a => !inRange a

/-- A recorded cause is one that the core raises (60_exceptions.md R301). -/
def Fatal.ok : Fatal → Bool
  | .memBounds a w => !inRange a && (isOpcode w 2#10 || isOpcode w 3#10)
  | .fetchOutOfRange a => !inRange a

/-- The fault record is there exactly in FAULTED, and names a fatal cause (R51, R301, R302). -/
def State.faultOk (s : State) : Bool :=
  match s.fault with
  | some r => decide (s.run = .faulted) && r.info.ok
  | none => decide (s.run ≠ .faulted)

/-- The invariant of the machine: both memories in canonical form, the fault record as R302 leaves it, every tag outside
memory, and no HALT and no tag ever past writeback (R132, R133, R150). -/
def State.inv (s : State) : Bool :=
  s.imem.wf && s.dmem.wf && s.faultOk &&
    s.ifid.instr.tagOk && s.idex.instr.tagOk && s.exmem.instr.tagOk && s.memwb.instr.tagOk &&
    !s.wbend.instr.isHalt && !s.wbend.instr.isTag

/-- Every latch holds a bubble: the pipeline as reset leaves it. -/
def State.drained (s : State) : Bool :=
  decide (s.ifid.instr = .bubble) && decide (s.idex.instr = .bubble) && decide (s.exmem.instr = .bubble) &&
    decide (s.memwb.instr = .bubble) && decide (s.wbend.instr = .bubble)

/-- `k` clock edges. -/
def steps (k : Nat) (s : State) : Result := Sys2Proof.core.run k s

/-- The stall cycles among the next `k` edges (R155: `stalls`, not a counter of the core). -/
def stallCycles : Nat → State → Nat
  | 0, _ => 0
  | k + 1, s =>
    (if s.commits && s.stall then 1 else 0) +
      (match step s with
       | .next t => stallCycles k t
       | .fault _ => 0
       | .refused _ => 0)

/-- The slot's `aluResult` in EX/MEM is read by some rule: as an address, as BEQ's difference, or as the value written
back (R154). -/
def Slot.readsAluResult (slot : Slot) : Bool := slot.isLw || slot.isSw || slot.isBeq || slot.dest.isSome

/-- The state with every latch field that no rule reads (R154) set to 0. -/
def State.observed (s : State) : State :=
  { s with
    exmem :=
      { instr := s.exmem.instr
        branchTarget := if s.exmem.instr.isBeq then s.exmem.branchTarget else 0
        aluResult := if s.exmem.instr.readsAluResult then s.exmem.aluResult else 0
        storeData := if s.exmem.instr.isSw then s.exmem.storeData else 0 }
    memwb :=
      { instr := s.memwb.instr
        writeData := if s.memwb.instr.dest.isSome then s.memwb.writeData else 0 }
    wbend :=
      { instr := s.wbend.instr
        writeData := if s.wbend.instr.dest.isSome then s.wbend.writeData else 0 } }

end Sys2Proof.Machine
end

