-- ==== Sys2Proof/Certificates/Slice0/Obligations.lean ====
section
/-! DEFINITION. The statements for the provers. Each docstring names the rule of spec/ it formalises, or says that it is
derived and from what. First the vocabulary that several statements share, then the statements. -/

namespace Sys2Proof.Machine

/-! ### Vocabulary -/

/-- The fetch and decode turns of an instruction: it enters IF/ID, the pc and `fetched` advance, and decode reads both
register fields and the sign-extended `fC` into ID/EX. Nothing else changes. -/
def FetchedAndDecoded (i : Instr) (s : State) : Prop :=
  (s.stage = .fetch →
    exec i s = .next
      { s with
        ifid := { instr := .word (encode i), pcPlus1 := s.pc + 1 }
        pc := s.pc + 1
        fetched := s.fetched + 1 }) ∧
  (s.stage = .decode →
    exec i s = .next
      { s with
        idex :=
          { instr := .word (encode i)
            pcPlus1 := s.ifid.pcPlus1
            readRegA := s.regs.read i.fA
            readRegB := s.regs.read i.fB
            offset := sext16 i.fC } })

/-- The execute turn of an instruction: without a stall, `alu` of its two forwarded operands and the offset enters
EX/MEM with the branch target and operand A; in a stall a bubble does, and the provisional retired delta falls by 1.
Nothing else changes. -/
def ExecutedWith (alu : Word → Word → Word → Word) (i : Instr) (s : State) : Prop :=
  s.stage = .execute →
    (s.stallFor (.word (encode i)) = false →
      exec i s = .next
        { s with
          exmem :=
            { instr := .word (encode i)
              branchTarget := s.idex.pcPlus1 + s.idex.offset
              aluResult := alu (s.fwd i.fA s.idex.readRegA) (s.fwd i.fB s.idex.readRegB) s.idex.offset
              storeData := s.fwd i.fA s.idex.readRegA } }) ∧
    (s.stallFor (.word (encode i)) = true →
      exec i s = .next { s with exmem := .bubble, retired := s.retired - 1 })

/-- The memory turn of an instruction that makes no access: the ALU result passes through to MEM/WB. -/
def PassesMemory (i : Instr) (s : State) : Prop :=
  s.stage = .memory →
    exec i s = .next { s with memwb := { instr := .word (encode i), writeData := s.exmem.aluResult } }

/-- The writeback turn of an instruction that writes register `r`. Every other register, and all of memory, is as
before. -/
def WritesBack (r : RegIdx) (i : Instr) (s : State) : Prop :=
  s.stage = .writeback →
    exec i s = .next
      { s with
        regs := s.regs.write r s.memwb.writeData
        wbend := { instr := .word (encode i), writeData := s.memwb.writeData }
        retired := s.retired + 1 }

/-- The writeback turn of an instruction that writes no register. -/
def WritesNoRegister (i : Instr) (s : State) : Prop :=
  s.stage = .writeback →
    exec i s = .next
      { s with
        wbend := { instr := .word (encode i), writeData := s.memwb.writeData }
        retired := s.retired + 1 }

/-- The clock's check of an instruction that is no HALT: nothing happens. -/
def PassesClock (i : Instr) (s : State) : Prop := s.stage = .clock → exec i s = .next s

/-- The instruction stalls exactly where EX/MEM holds an LW whose `fA` is one of the registers `rs`. -/
def StallsOn (rs : List RegIdx) (i : Instr) (s : State) : Prop :=
  s.stallFor (.word (encode i)) = true ↔ s.exmem.instr.isLw = true ∧ ∃ r ∈ rs, s.exmem.instr.fieldA = some r

/-- All turns of an instruction with no effect but for the clock's: it flows through the latches, its ALU value is 0,
it reaches no memory and no register; under `STALL_SOURCES = used` it never stalls, under `fields` on both its fields.
-/
def FlowsWithoutEffect (i : Instr) (s : State) : Prop :=
  FetchedAndDecoded i s ∧ ExecutedWith (fun _ _ _ => 0) i s ∧ PassesMemory i s ∧ WritesNoRegister i s ∧
    (s.params.stallSources = .used → s.stallFor (.word (encode i)) = false) ∧
    (s.params.stallSources = .fields → StallsOn [i.fA, i.fB] i s)

/-- The machine after reset with an image loaded and registers 1 and 2 set: the start of the spec's examples. -/
def bootWith (img : List Word) (r1 r2 : Word) : State :=
  { State.boot img with regs := ((State.boot img).regs.write 1 r1).write 2 r2 }

/-- After `k` edges the state has the property. -/
def After (k : Nat) (s : State) (p : State → Prop) : Prop := ∃ t, steps k s = .next t ∧ p t

/-- A running machine with a drained pipeline whose next fetch, in range, is the instruction. -/
def Ready (s : State) (i : Instr) : Prop :=
  s.rst = false ∧ s.run = .running ∧ s.drained = true ∧ inRange s.pc = true ∧ s.imemRead s.pc = encode i

/-- The slot fetched right behind the next instruction: the word at pc + 1, or a tag. -/
def followerSlot (s : State) : Slot := ({ s with pc := s.pc + 1 } : State).fetchSlot

/-- The address of an LW or SW `w` whose base register is read from `regs` (42_loadstore.md R224). -/
def accessAddress (regs : RegFile) (w : Word) : Word := effectiveAddress (regs.read (fBOf w)) (sext16 (fCOf w))

/-- The instruction that a `Ready` state fetches next has completed after five edges, with the registers `regs`, and the core
runs on, unless the follower is an LW or SW that faults in its memory stage in the fifth cycle: its address, with its base
in `regs`, is then out of range, the record names it and the follower's word, and registers and data memory are as before. A
follower that makes no access, or an access in range, lets the instruction complete; one that is no SW leaves data memory as
it is. -/
def CompletesWith (regs : RegFile) (s : State) : Prop :=
  After 5 s fun t =>
    ((∀ w, followerSlot s = .word w → (opOf w = 2#10 ∨ opOf w = 3#10) → inRange (accessAddress regs w) = true) →
      t.run = .running) ∧
    ((followerSlot s).isSw = false → t.dmem = s.dmem) ∧
    (t.run = .running → t.regs = regs ∧ t.cycles = s.cycles + 5) ∧
    (t.run ≠ .running →
      t.run = .faulted ∧ t.regs = s.regs ∧ t.dmem = s.dmem ∧ t.cycles = s.cycles + 4 ∧
      ∃ w, followerSlot s = .word w ∧ (opOf w = 2#10 ∨ opOf w = 3#10) ∧ inRange (accessAddress regs w) = false ∧
        t.fault = some { info := .memBounds (accessAddress regs w) w, cycle := s.cycles + 4 })

/-- The ALU of execute by opcode (40_pipeline.md R140). -/
def AluValue (w a b offset : Word) : Word :=
  if opOf w = 0#10 then a + b
  else if opOf w = 1#10 then ~~~(a &&& b)
  else if opOf w = 2#10 ∨ opOf w = 3#10 then b + offset
  else if opOf w = 4#10 then a - b
  else 0

/-- The counter identities (40_pipeline.md R155), with the number of stall cycles so far, which is no counter of the
core. -/
def CountersAgree (stalls : Word) (s : State) : Prop :=
  s.retired = s.cycles - stalls - 3 * s.mispred ∧
    s.fetched = if s.params.fetchCountOnStall then s.cycles else s.cycles - stalls

end Sys2Proof.Machine

open Sys2Proof Sys2Proof.Machine

/-! ### Encoding -/

/-- Decode and encode agree: no bit of any well-formed instruction's encoding is dropped, with every field at every
value. Derived from 30_encoding.md sections 1 to 3. -/
def Obligations.DecodeOfEncode : Prop := ∀ i : Instr, i.wf = true → decode (encode i) = i

/-- R106: every word decodes to an opcode and three fields, and none is rejected; `isOpcode` tests the opcode. -/
def Obligations.EveryWordDecodes : Prop :=
  ∀ w : Word, (decode w).wf = true ∧ (decode w).opcode = opOf w ∧ (decode w).fA = fAOf w ∧ (decode w).fB = fBOf w ∧
    (decode w).fC = fCOf w ∧ ∀ k : OpField, isOpcode w k = true ↔ (decode w).opcode = k

/-- R102, with the bit numbering of R10: the fields are the word's bits 21..19, 18..16 and 15..0, read unsigned. -/
def Obligations.FieldsAreTheWordsBits : Prop :=
  ∀ w : Word, (fAOf w).toNat = w.toNat / 2 ^ 19 % 2 ^ 3 ∧ (fBOf w).toNat = w.toNat / 2 ^ 16 % 2 ^ 3 ∧
    (fCOf w).toNat = w.toNat % 2 ^ 16

/-- R12: sign extension, and `zext`. -/
def Obligations.SignExtensionOfTheOffset : Prop :=
  ∀ c : CField, (sext16 c).toInt = (if c.getLsbD 15 = false then (c.toNat : Int) else (c.toNat : Int) - 65536) ∧
    (zext c).toNat = c.toNat

/-- The ten words of 95_test_vectors.md SRC-2 decode to the instructions that table names. Derived. -/
def Obligations.SpecWordsDecode : Prop :=
  decode 0x000A0003 = .add 1 2 3 ∧ decode 0x004A0003 = .nand 1 2 3 ∧ decode 0x00880008 = .lw 1 0 8 ∧
  decode 0x00E0000A = .sw 4 0 10 ∧ decode 0x0100FFFC = .beq 0 0 0xFFFC ∧ decode 0x014A0000 = .jalr 1 2 0 ∧
  decode 0x01800000 = .halt 0 0 0 ∧ decode 0x01C00000 = .noop 0 0 0 ∧ decode 0x02000000 = .data25 8 0 0 0 ∧
  decode 0xFFFFFFFF = .data31 1023 7 7 0xFFFF

/-! ### Reset and loading -/

/-- R33: every register is 0 after reset, in the reset state and after a reset edge from any state. -/
def Obligations.RegistersAreZeroAfterReset : Prop :=
  ∀ (r : RegIdx) (s : State), State.reset.regs.read r = 0 ∧ s.resetEdge.regs.read r = 0

/-- An edge with `rst` asserted resets every piece of state from any run state, and writes neither memory. Derived
from 70_reset_and_hazards.md section 1 (R340, the spec's decisions D10 and D20). -/
def Obligations.ResetEdgeResetsAllButMemories : Prop :=
  ∀ s : State, s.rst = true →
    step s = .next
      { s with
        regs := Vector.replicate 8 0
        pc := 0
        ifid := { instr := .word 0x01C00000, pcPlus1 := 0 }
        idex := { instr := .word 0x01C00000, pcPlus1 := 0, readRegA := 0, readRegB := 0, offset := 0 }
        exmem := { instr := .word 0x01C00000, branchTarget := 0, aluResult := 0, storeData := 0 }
        memwb := { instr := .word 0x01C00000, writeData := 0 }
        wbend := { instr := .word 0x01C00000, writeData := 0 }
        cycles := 0
        fetched := 0
        retired := 0
        notTaken := 0
        mispred := 0
        run := .running
        fault := none }

/-- The host's load puts word `i` of the image at address `i` of both memories and 0 at every other address, while
reset is held, for an image of at most 65536 words; without reset held it does nothing, which is the model's reading
(log 24). Derived from 60_exceptions.md section 3 (R310) and the spec's decision D11. -/
def Obligations.LoadPutsTheImageInBothMemories : Prop :=
  ∀ (s : State) (img : List Word), img.length ≤ 65536 →
    (s.rst = false → s.loadImage img = none) ∧
    (s.rst = true → ∃ t, s.loadImage img = some t ∧
      ∀ a : Nat, Memory.read t.imem a = img.getD a 0 ∧ Memory.read t.dmem a = img.getD a 0)

/-! ### The step runs the decoded instructions -/

/-- Where the slots of a cycle that runs decode to the instructions `i0` (at the pc) to `i4` (in MEM/WB), the step is
`exec` of `i0` in its fetch turn, of `i1` in decode, `i2` in execute, `i3` in memory and `i4` in writeback, all from
the same state, put together by `commit`. That an instruction acts in turns named by `stage`, joined by `commit`, is
the model's own form of the cycle (DESIGN CHOICE, logs 1 and 2). A pc out of range and fetch-fault tags are not in
this statement: see Obligations.TagInMemWbFaultsTheCore, Obligations.OrdinaryCycleMovesEveryLatch and
Obligations.FetchOutOfRangeFaultsAfterFourCycles. Derived from 40_pipeline.md section 1. -/
def Obligations.StepRunsTheDecodedInstructions : Prop :=
  ∀ (s f d e m w : State) (w1 w2 w3 w4 : Word), s.cycleRuns = true → inRange s.pc = true →
    s.ifid.instr = .word w1 → s.idex.instr = .word w2 → s.exmem.instr = .word w3 → s.memwb.instr = .word w4 →
    exec (decode (s.imemRead s.pc)) { s with stage := .fetch } = .next f →
    exec (decode w1) { s with stage := .decode } = .next d →
    exec (decode w2) { s with stage := .execute } = .next e →
    exec (decode w3) { s with stage := .memory } = .next m →
    exec (decode w4) { s with stage := .writeback } = .next w →
    step s = .next (commit s { f with stage := s.stage } { d with stage := s.stage } { e with stage := s.stage }
      { m with stage := s.stage } { w with stage := s.stage })

/-! ### The instructions -/

/-- ADD (constructor `add`): encoding, every stage, stalls, no fault, and the rule's example. Derived from 41_alu.md
(R200), and the latch fields, the stall's bubble and the retired count from 40_pipeline.md sections 2 to 6 (the spec's
decisions D9, D16 and D17). -/
def Obligations.AddEffect : Prop :=
  (∀ (fA fB : RegIdx) (fC : CField) (s : State),
    encode (.add fA fB fC) = (fA.setWidth 32 <<< 19 ||| fB.setWidth 32 <<< 16 ||| fC.setWidth 32) ∧
    FetchedAndDecoded (.add fA fB fC) s ∧
    ExecutedWith (fun a b _ => a + b) (.add fA fB fC) s ∧
    PassesMemory (.add fA fB fC) s ∧
    WritesBack (fC.extractLsb' 0 3) (.add fA fB fC) s ∧
    PassesClock (.add fA fB fC) s ∧
    StallsOn [fA, fB] (.add fA fB fC) s) ∧
  encode (Asm.add 3 1 2) = 0x000A0003 ∧
  After 5 (bootWith [0x000A0003, 0x01800000] 5 7) (fun t => t.regs.read 3 = 12)

/-- NAND (constructor `nand`): encoding, every stage, stalls, no fault, and the rule's example. Derived from 41_alu.md
(R202), and the latch fields, the stall's bubble and the retired count from 40_pipeline.md sections 2 to 6 (the spec's
decisions D9, D16 and D17). -/
def Obligations.NandEffect : Prop :=
  (∀ (fA fB : RegIdx) (fC : CField) (s : State),
    encode (.nand fA fB fC) = (0x00400000 ||| fA.setWidth 32 <<< 19 ||| fB.setWidth 32 <<< 16 ||| fC.setWidth 32) ∧
    FetchedAndDecoded (.nand fA fB fC) s ∧
    ExecutedWith (fun a b _ => ~~~(a &&& b)) (.nand fA fB fC) s ∧
    PassesMemory (.nand fA fB fC) s ∧
    WritesBack (fC.extractLsb' 0 3) (.nand fA fB fC) s ∧
    PassesClock (.nand fA fB fC) s ∧
    StallsOn [fA, fB] (.nand fA fB fC) s) ∧
  encode (Asm.nand 3 1 2) = 0x004A0003 ∧
  After 5 (bootWith [0x004A0003, 0x01800000] 0x0F0F0F0F 0x00FF00FF) (fun t => t.regs.read 3 = 0xFFF0FFF0)

/-- LW (constructor `lw`): encoding, every stage, the bounds fault, what it stalls on under each `STALL_SOURCES` and
what stalls on it, and the rule's example. Derived from 42_loadstore.md (R220), the entry of FAULTED from
60_exceptions.md R302 (the spec's decisions D12 and D22), the sources from 30_encoding.md R112 (D5), and the latch
fields, the stall's bubble and the retired count from 40_pipeline.md sections 2 to 6 (the spec's decisions D9, D16 and
D17). -/
def Obligations.LwEffect : Prop :=
  (∀ (fA fB : RegIdx) (fC : CField) (s : State),
    encode (.lw fA fB fC) = (0x00800000 ||| fA.setWidth 32 <<< 19 ||| fB.setWidth 32 <<< 16 ||| fC.setWidth 32) ∧
    FetchedAndDecoded (.lw fA fB fC) s ∧
    ExecutedWith (fun _ b offset => b + offset) (.lw fA fB fC) s ∧
    (s.stage = .memory → 0 ≤ s.exmem.aluResult.toInt → s.exmem.aluResult.toInt < 65536 →
      exec (.lw fA fB fC) s = .next
        { s with memwb :=
            { instr := .word (encode (.lw fA fB fC)), writeData := Memory.read s.dmem s.exmem.aluResult.toNat } }) ∧
    (s.stage = .memory → ¬ (0 ≤ s.exmem.aluResult.toInt ∧ s.exmem.aluResult.toInt < 65536) →
      exec (.lw fA fB fC) s = .next
        { s with
          run := .faulted
          fault := some { info := .memBounds s.exmem.aluResult (encode (.lw fA fB fC)), cycle := s.cycles } }) ∧
    WritesBack fA (.lw fA fB fC) s ∧
    PassesClock (.lw fA fB fC) s ∧
    (s.params.stallSources = .used → StallsOn [fB] (.lw fA fB fC) s) ∧
    (s.params.stallSources = .fields → StallsOn [fA, fB] (.lw fA fB fC) s) ∧
    (s.exmem.instr = .word (encode (.lw fA fB fC)) → (s.stall = true ↔ fA ∈ s.idex.instr.srcs s.params))) ∧
  encode (Asm.lw 1 8 0) = 0x00880008 ∧
  After 5 (bootWith [0x00880008, 0x01800000, 0, 0, 0, 0, 0, 0, 5] 0 0) (fun t => t.regs.read 1 = 5)

/-- SW (constructor `sw`): encoding, every stage, the bounds fault, stalls, and the rule's example. Every word of data
memory but the addressed one is as before, by Obligations.DataMemoryChangesOnlyByAStore. Derived from 42_loadstore.md
(R222), the entry of FAULTED from 60_exceptions.md R302 (the spec's decisions D12 and D22), the write value from R145
(D28), and the latch fields, the stall's bubble and the retired count from 40_pipeline.md sections 2 to 6 (the spec's
decisions D9, D16 and D17). -/
def Obligations.SwEffect : Prop :=
  (∀ (fA fB : RegIdx) (fC : CField) (s : State),
    encode (.sw fA fB fC) = (0x00C00000 ||| fA.setWidth 32 <<< 19 ||| fB.setWidth 32 <<< 16 ||| fC.setWidth 32) ∧
    FetchedAndDecoded (.sw fA fB fC) s ∧
    ExecutedWith (fun _ b offset => b + offset) (.sw fA fB fC) s ∧
    (s.stage = .memory → 0 ≤ s.exmem.aluResult.toInt → s.exmem.aluResult.toInt < 65536 →
      exec (.sw fA fB fC) s = .next
        { s with
          dmem := Memory.write s.dmem s.exmem.aluResult.toNat s.exmem.storeData
          memwb := { instr := .word (encode (.sw fA fB fC)), writeData := s.exmem.aluResult } }) ∧
    (s.stage = .memory → ¬ (0 ≤ s.exmem.aluResult.toInt ∧ s.exmem.aluResult.toInt < 65536) →
      exec (.sw fA fB fC) s = .next
        { s with
          run := .faulted
          fault := some { info := .memBounds s.exmem.aluResult (encode (.sw fA fB fC)), cycle := s.cycles } }) ∧
    WritesNoRegister (.sw fA fB fC) s ∧
    PassesClock (.sw fA fB fC) s ∧
    StallsOn [fA, fB] (.sw fA fB fC) s) ∧
  encode (Asm.sw 4 10 0) = 0x00E0000A ∧
  After 4 { State.boot [0x00E0000A, 0x01800000] with regs := State.reset.regs.write 4 (-13) }
    (fun t => Memory.read t.dmem 10 = -13)

/-- BEQ (constructor `beq`): encoding, every stage, taken and not taken, stalls, no fault, and the rule's example.
Derived from 43_control.md (R240), the tag from 40_pipeline.md R135 (the spec's decision D13), the flush's bubbles
from R147 (D17), and the latch fields, the stall's bubble and the retired count from 40_pipeline.md sections 2 to 6
(the spec's decisions D9, D16 and D17). -/
def Obligations.BeqEffect : Prop :=
  (∀ (fA fB : RegIdx) (fC : CField) (s : State),
    encode (.beq fA fB fC) = (0x01000000 ||| fA.setWidth 32 <<< 19 ||| fB.setWidth 32 <<< 16 ||| fC.setWidth 32) ∧
    FetchedAndDecoded (.beq fA fB fC) s ∧
    ExecutedWith (fun a b _ => a - b) (.beq fA fB fC) s ∧
    (s.stage = .memory → s.exmem.aluResult = 0 →
      exec (.beq fA fB fC) s = .next
        { s with
          pc := s.exmem.branchTarget
          ifid := .bubble
          idex := .bubble
          exmem := .bubble
          memwb := { instr := .word (encode (.beq fA fB fC)), writeData := s.exmem.aluResult }
          mispred := s.mispred + 1
          retired := s.retired - 3 }) ∧
    (s.stage = .memory → s.exmem.aluResult ≠ 0 →
      exec (.beq fA fB fC) s = .next
        { s with
          memwb := { instr := .word (encode (.beq fA fB fC)), writeData := s.exmem.aluResult }
          notTaken := s.notTaken + 1 }) ∧
    (inRange s.exmem.branchTarget = false →
      ({ s with pc := s.exmem.branchTarget } : State).fetchSlot = .ff s.exmem.branchTarget) ∧
    WritesNoRegister (.beq fA fB fC) s ∧
    PassesClock (.beq fA fB fC) s ∧
    StallsOn [fA, fB] (.beq fA fB fC) s) ∧
  encode (Asm.beq 1 1 5) = 0x01090005 ∧
  After 4 (bootWith [0x01090005] 3 0)
    (fun t => t.pc = 6 ∧ t.mispred = 1 ∧ t.ifid.instr = .bubble ∧ t.idex.instr = .bubble ∧ t.exmem.instr = .bubble)

/-- JALR (constructor `jalr`) has no effect in any stage and is no jump: the spec's own reading of "unimplemented".
Derived from 43_control.md (R243, the spec's decision D14), 30_encoding.md sections 1 and 4 (D5), and the latch
fields, the stall's bubble and the retired count from 40_pipeline.md sections 2 to 6 (the spec's decisions D9, D16 and
D17). -/
def Obligations.JalrHasNoEffect : Prop :=
  ∀ (fA fB : RegIdx) (fC : CField) (s : State),
    encode (.jalr fA fB fC) = (0x01400000 ||| fA.setWidth 32 <<< 19 ||| fB.setWidth 32 <<< 16 ||| fC.setWidth 32) ∧
    FlowsWithoutEffect (.jalr fA fB fC) s ∧ PassesClock (.jalr fA fB fC) s ∧ encode (Asm.jalr 1 2) = 0x014A0000

/-- HALT (constructor `halt`): no effect in any stage, the clock that finds it in MEM/WB stops the core, and the
rule's example. Derived from 43_control.md (R245), the stall sources from 30_encoding.md R112 (the spec's decision
D5), and the latch fields, the stall's bubble and the retired count from 40_pipeline.md sections 2 to 6 (the spec's
decisions D9, D16 and D17). -/
def Obligations.HaltEffect : Prop :=
  (∀ (fA fB : RegIdx) (fC : CField) (s : State),
    encode (.halt fA fB fC) = (0x01800000 ||| fA.setWidth 32 <<< 19 ||| fB.setWidth 32 <<< 16 ||| fC.setWidth 32) ∧
    FlowsWithoutEffect (.halt fA fB fC) s ∧
    (s.stage = .clock → exec (.halt fA fB fC) s = .next { s with run := .halted })) ∧
  encode Asm.halt = 0x01800000 ∧
  After 5 (State.boot [0x01800000])
    (fun t => t.run = .halted ∧ t.cycles = 4 ∧ t.fetched = 4 ∧ t.retired = 4 ∧ t.regs = Vector.replicate 8 0)

/-- NOOP (constructor `noop`): no effect in any stage, a bubble is the slot of one, and the rule's example. Derived
from 43_control.md (R247), 30_encoding.md R110 and R112 (the spec's decision D5), and the latch fields, the stall's
bubble and the retired count from 40_pipeline.md sections 2 to 6 (the spec's decisions D9, D16 and D17). -/
def Obligations.NoopEffect : Prop :=
  (∀ (fA fB : RegIdx) (fC : CField) (s : State),
    encode (.noop fA fB fC) = (0x01C00000 ||| fA.setWidth 32 <<< 19 ||| fB.setWidth 32 <<< 16 ||| fC.setWidth 32) ∧
    FlowsWithoutEffect (.noop fA fB fC) s ∧ PassesClock (.noop fA fB fC) s) ∧
  Slot.bubble = .word (encode (.noop 0 0 0)) ∧
  encode Asm.noop = 0x01C00000 ∧
  After 6 (State.boot [0x01C00000, 0x01800000])
    (fun t => t.run = .halted ∧ t.cycles = 5 ∧ t.retired = 5 ∧ t.fetched = 5)

/-- An unrecognized opcode, 8 to 1023 (constructors `data31`, `data30`, `data29`, `data28`, `data27`, `data26`,
`data25`), has no effect in any stage and shows as "data"; its word is its opcode and fields in their places, the
opcode of a word is its bits 31..22, read unsigned; the words are those with a bit of 31..25 set, so every negative
word is one; and the rule's example. Derived from 43_control.md (R249), 30_encoding.md R100, R101 (the spec's decision
D23) and R112 (D5), and the latch fields, the stall's bubble and the retired count from 40_pipeline.md sections 2 to 6
(the spec's decisions D9, D16 and D17). -/
def Obligations.DataHasNoEffect : Prop :=
  (∀ (i : Instr) (s : State), i.wf = true → 8 ≤ i.opcode.toNat →
    FlowsWithoutEffect i s ∧ PassesClock i s ∧ i.mnemonic = "data" ∧
      encode i =
        (i.opcode.setWidth 32 <<< 22 ||| i.fA.setWidth 32 <<< 19 ||| i.fB.setWidth 32 <<< 16 ||| i.fC.setWidth 32)) ∧
  (∀ w : Word, (opOf w).toNat = w.toNat / 2 ^ 22) ∧
  (∀ w : Word, (8 ≤ (opOf w).toNat ↔ w.toNat / 2 ^ 25 ≠ 0) ∧ (w.toInt < 0 → 8 ≤ (opOf w).toNat)) ∧
  After 7 (State.boot [0xFFFFFFFF, 0x7FFFFFFF, 0x01800000])
    (fun t => t.run = .halted ∧ t.cycles = 6 ∧ t.regs = Vector.replicate 8 0)

/-- `exec` answers a next state for every instruction in every turn: none writes instruction memory (20_memory.md
R83), and none touches the input, the parameters or the turn. This is the model's form, not a rule: HALT's stop and
the `MemBounds` entry of LW and SW are next states of it, in HALTED and FAULTED (DESIGN CHOICE, log 6), and that
`rst`, `params` and `stage` are fields that `exec` keeps is logs 2, 3 and 4. Derived from 40_pipeline.md sections 1 to
6 and 60_exceptions.md section 1. -/
def Obligations.EveryInstructionAnswersANextState : Prop :=
  ∀ (i : Instr) (s : State), ∃ t, exec i s = .next t ∧ t.imem = s.imem ∧ t.rst = s.rst ∧ t.params = s.params ∧
    t.stage = s.stage

/-! ### Registers and memory -/

/-- R31: no register is hardwired. A write to any register, `r0` too, is what later reads of it return, and every
other register is as before. -/
def Obligations.EveryRegisterKeepsWhatIsWritten : Prop :=
  ∀ (regs : RegFile) (r q : RegIdx) (v : Word),
    (regs.write r v).read r = v ∧ (q ≠ r → (regs.write r v).read q = regs.read q)

/-- Registers change at an edge only by the writeback of the instruction in MEM/WB, in a cycle that commits, or by
reset. Derived from 10_state.md section 1 (R32) and 40_pipeline.md section 6 (R150). -/
def Obligations.RegistersChangeOnlyByWriteback : Prop :=
  ∀ (s t : State) (r : RegIdx), s.rst = false → step s = .next t →
    t.regs.read r = if s.commits = true ∧ s.memwb.instr.dest = some r then s.memwb.writeData else s.regs.read r

/-- No edge writes instruction memory, whatever the state. Derived from 20_memory.md section 5 (R83). -/
def Obligations.InstructionMemoryNeverChanges : Prop :=
  ∀ s t : State, step s = .next t → t.imem = s.imem

/-- At an edge the word at `a` of data memory is as before unless the cycle commits with an SW in EX/MEM whose address
is `a`; then it is the SW's store data. Derived from 20_memory.md sections 2 and 4 (R77, R82). The premise is the
canonical form, which Obligations.InvariantIsKept keeps. -/
def Obligations.DataMemoryChangesOnlyByAStore : Prop :=
  ∀ (s t : State) (a : Nat), s.dmem.wf = true → step s = .next t →
    Memory.read t.dmem a =
      if s.commits = true ∧ s.exmem.instr.isSw = true ∧ a = s.exmem.aluResult.toNat then s.exmem.storeData
      else Memory.read s.dmem a

/-- A load in the memory stage one cycle after a store to the same address gets the word stored. Derived from
20_memory.md section 5 (R84). -/
def Obligations.LoadAfterStoreGetsTheStoredWord : Prop :=
  ∀ s t u : State, s.dmem.wf = true → s.commits = true → s.exmem.instr.isSw = true → step s = .next t →
    t.cycleRuns = true → t.exmem.instr.isLw = true → t.exmem.aluResult = s.exmem.aluResult → step t = .next u →
    u.memwb.instr = t.exmem.instr ∧ u.memwb.writeData = s.exmem.storeData

/-- An access is in range exactly when the unbounded sum of base and offset is: the wrap brings no sum into range.
Derived from 42_loadstore.md (R224). -/
def Obligations.AddressInRangeExactlyWhenTheSumIs : Prop :=
  ∀ (base : Word) (c : CField),
    inRange (effectiveAddress base (sext16 c)) = true ↔
      0 ≤ base.toInt + (sext16 c).toInt ∧ base.toInt + (sext16 c).toInt < 65536

/-! ### Hazards and forwarding -/

/-- Forwarding under both readings. Under the default it takes the youngest matching producer of EX/MEM, MEM/WB and
WB/END, else the decode-stage value; under `FWD_LOAD_OVERRIDE` first an LW into the register in MEM/WB, then one in
WB/END, and otherwise what the default takes. Derived from 40_pipeline.md section 4 (R143, R144, the spec's decision
D7). -/
def Obligations.ForwardingTakesTheYoungestProducer : Prop :=
  ∀ (s : State) (r : RegIdx) (raw : Word),
    (s.params.fwdLoadOverride = false →
      (s.exmem.instr.dest = some r → s.fwd r raw = s.exmem.aluResult) ∧
      (s.exmem.instr.dest ≠ some r → s.memwb.instr.dest = some r → s.fwd r raw = s.memwb.writeData) ∧
      (s.exmem.instr.dest ≠ some r → s.memwb.instr.dest ≠ some r → s.wbend.instr.dest = some r →
        s.fwd r raw = s.wbend.writeData) ∧
      (s.exmem.instr.dest ≠ some r → s.memwb.instr.dest ≠ some r → s.wbend.instr.dest ≠ some r → s.fwd r raw = raw)) ∧
    (s.params.fwdLoadOverride = true →
      (s.memwb.instr.isLw = true ∧ s.memwb.instr.fieldA = some r → s.fwd r raw = s.memwb.writeData) ∧
      (¬ (s.memwb.instr.isLw = true ∧ s.memwb.instr.fieldA = some r) →
        s.wbend.instr.isLw = true ∧ s.wbend.instr.fieldA = some r → s.fwd r raw = s.wbend.writeData) ∧
      (¬ (s.memwb.instr.isLw = true ∧ s.memwb.instr.fieldA = some r) →
        ¬ (s.wbend.instr.isLw = true ∧ s.wbend.instr.fieldA = some r) →
        s.fwd r raw = (s.withParams { s.params with fwdLoadOverride := false }).fwd r raw))

/-- The two forwarding readings differ for a register that the instruction in ID/EX reads, in a cycle without a stall,
only where the window holds an older load and a younger ALU instruction with that destination. Derived from
40_pipeline.md section 4 (R144). -/
def Obligations.ForwardingReadingsDifferOnlyBehindAnOlderLoad : Prop :=
  ∀ (s : State) (w : Word) (r : RegIdx) (raw : Word), s.idex.instr = .word w → r ∈ usedSrcs (decode w) →
    s.stall = false → s.fwdOverride r raw ≠ s.fwdYoungest r raw →
    (s.memwb.instr.loads r = true ∧ s.exmem.instr.dest = some r ∧ s.exmem.instr.isLw = false) ∨
    (s.wbend.instr.loads r = true ∧
      ((s.exmem.instr.dest = some r ∧ s.exmem.instr.isLw = false) ∨
       (s.memwb.instr.dest = some r ∧ s.memwb.instr.isLw = false)))

/-- Every stall under `STALL_SOURCES = used` is one under `fields`: the other reading only adds stalls. Derived from
30_encoding.md section 4 (R112, the spec's decision D5). -/
def Obligations.FieldsReadingStallsWheneverUsedDoes : Prop :=
  ∀ (s : State) (slot : Slot),
    (s.withParams { s.params with stallSources := .used }).stallFor slot = true →
    (s.withParams { s.params with stallSources := .fields }).stallFor slot = true

/-- A committed stall cycle: the pc, IF/ID and ID/EX are held, a bubble enters EX/MEM, the load moves on with its
loaded word, `retired` stays, and the next cycle is no stall and hands the loaded word to the consumer under either
forwarding reading. Derived from 40_pipeline.md sections 2 (R136), 4 (R141, R142), 5 (R145) and 6 (R150, R152, the
count of `retired`), and the spec's decisions D8, D9 and D17. -/
def Obligations.StallHoldsTheFrontAndDeliversTheLoad : Prop :=
  ∀ s t : State, s.commits = true → s.stall = true → step s = .next t →
    t.pc = s.pc ∧ t.ifid = s.ifid ∧ t.idex = s.idex ∧ t.exmem = .bubble ∧
    t.memwb = { instr := s.exmem.instr, writeData := s.dmemRead s.exmem.aluResult } ∧
    t.retired = s.retired ∧ t.fetched = (if s.params.fetchCountOnStall then s.fetched + 1 else s.fetched) ∧
    t.stall = false ∧
    ∀ (r : RegIdx) (raw : Word), s.exmem.instr.dest = some r → t.fwd r raw = s.dmemRead s.exmem.aluResult

/-- A stall and a taken branch never occur in the same cycle. Derived from 40_pipeline.md section 7 (R153). -/
def Obligations.StallAndTakenBranchExclude : Prop := ∀ s : State, ¬ (s.stall = true ∧ s.taken = true)

/-- The stale operand: in the cycle after a load-use stall, a field `r` that the consumer reads, written by the slot
in WB/END at the stall and by neither the load nor the slot between them, has the value decode read before that write,
not the value written; the consumer executes with it, as operand A, as operand B, as SW's store data and in the
address of an LW or SW. Both forwarding readings and both stall readings are covered. Derived from
70_reset_and_hazards.md section 2 (R345, the spec's decision D25). -/
def Obligations.OperandIsStaleAfterALoadUseStall : Prop :=
  ∀ (p s t : State) (c : Word) (r : RegIdx), p.cycleRuns = true → step p = .next s → s.cycleRuns = true →
    step s = .next t → t.cycleRuns = true → s.stall = true → s.idex.instr = .word c → r ∈ usedSrcs (decode c) →
    s.wbend.instr.dest = some r → s.exmem.instr.dest ≠ some r → s.memwb.instr.dest ≠ some r →
    s.regs.read r = s.wbend.writeData ∧ t.idex.instr = .word c ∧
    (fAOf c = r → t.operandA (.word c) = p.regs.read r) ∧
    (fBOf c = r → t.operandB (.word c) = p.regs.read r) ∧
    ∃ u, step t = .next u ∧ u.exmem.instr = .word c ∧ (fAOf c = r → u.exmem.storeData = p.regs.read r) ∧
      (fBOf c = r → (opOf c = 2#10 ∨ opOf c = 3#10) → u.exmem.aluResult = effectiveAddress (p.regs.read r) t.idex.offset)

/-! ### Branches -/

/-- The zero test of the wrapped difference is equality of the words. Derived from 43_control.md (R241). -/
def Obligations.BranchTestIsEquality : Prop := ∀ a b : Word, zeroTest (a - b) = true ↔ a = b

/-- A committed cycle with a taken branch: redirect, flush of exactly IF/ID, ID/EX and EX/MEM, the BEQ moves on, the
older instruction's writeback completes, data memory is as before, and the counters. Derived from 40_pipeline.md
sections 2 (R136), 5 (R145, R147, R149) and 6 (R150, R152, the count of `retired`), and the spec's decisions D9 and
D17. -/
def Obligations.TakenBranchFlushesThreeLatches : Prop :=
  ∀ s t : State, s.commits = true → s.exmem.instr.isBeq = true → s.exmem.aluResult = 0 → step s = .next t →
    t.pc = s.exmem.branchTarget ∧ t.ifid = .bubble ∧ t.idex = .bubble ∧ t.exmem = .bubble ∧
    t.memwb = { instr := s.exmem.instr, writeData := 0 } ∧
    t.wbend = { instr := s.memwb.instr, writeData := s.memwb.writeData } ∧
    (∀ r, s.memwb.instr.dest = some r → t.regs = s.regs.write r s.memwb.writeData) ∧ t.dmem = s.dmem ∧
    t.mispred = s.mispred + 1 ∧ t.notTaken = s.notTaken ∧ t.retired = s.retired - 2 ∧ t.fetched = s.fetched + 1

/-- A branch not taken counts, and nothing else of it shows: no flush, and the pc keeps fetch's sequential value.
Derived from 40_pipeline.md sections 2, 5 and 6 (R135, R148, R152, the spec's decisions D9 and D13). -/
def Obligations.NotTakenBranchOnlyCounts : Prop :=
  ∀ s t : State, s.commits = true → s.exmem.instr.isBeq = true → s.exmem.aluResult ≠ 0 → step s = .next t →
    t.notTaken = s.notTaken + 1 ∧ t.mispred = s.mispred ∧ t.pc = s.pc + 1 ∧ t.run = .running ∧ t.imem = s.imem ∧
    t.memwb = { instr := s.exmem.instr, writeData := s.exmem.aluResult } ∧
    t.wbend = { instr := s.memwb.instr, writeData := s.memwb.writeData } ∧
    (∀ r, t.regs.read r = if s.memwb.instr.dest = some r then s.memwb.writeData else s.regs.read r) ∧
    t.ifid = { instr := s.fetchSlot, pcPlus1 := s.pc + 1 } ∧ t.idex.instr = s.ifid.instr ∧
    t.exmem.instr = s.idex.instr ∧ t.dmem = s.dmem ∧ t.retired = s.retired + 1 ∧ t.fetched = s.fetched + 1

/-- After a taken branch EX/MEM holds a bubble at the start of the next three cycles, and none of them stalls or takes
a branch. Derived from 40_pipeline.md section 7 (R156). -/
def Obligations.ThreeBubblesFollowATakenBranch : Prop :=
  ∀ s a b c : State, s.commits = true → s.taken = true → step s = .next a → step a = .next b → step b = .next c →
    (a.exmem.instr = .bubble ∧ a.stall = false ∧ a.taken = false) ∧
    (b.exmem.instr = .bubble ∧ b.stall = false ∧ b.taken = false) ∧
    (c.exmem.instr = .bubble ∧ c.stall = false ∧ c.taken = false)

/-- The pc at an edge: a taken branch redirects it, a stall holds it, any other committed cycle adds 1, and an edge
that commits nothing leaves it. Derived from 10_state.md section 2 (R35) and 43_control.md (R242). -/
def Obligations.PcHasThreeWriters : Prop :=
  ∀ s t : State, s.rst = false → step s = .next t →
    t.pc = if s.commits = false then s.pc else if s.taken then s.exmem.branchTarget else if s.stall then s.pc
      else s.pc + 1

/-! ### Counters -/

/-- An edge that commits increments `cycles` and keeps the core RUNNING; EX/MEM's slot moves to MEM/WB and MEM/WB's to
WB/END with its value, in one edge. What the younger latches hold is in Obligations.OrdinaryCycleMovesEveryLatch,
Obligations.StallHoldsTheFrontAndDeliversTheLoad and Obligations.TakenBranchFlushesThreeLatches. Derived from
40_pipeline.md section 6 (R150, R151). -/
def Obligations.CommitIncrementsCycles : Prop :=
  ∀ s : State, s.commits = true →
    ∃ t, step s = .next t ∧ t.cycles = s.cycles + 1 ∧ t.memwb.instr = s.exmem.instr ∧
      t.wbend = { instr := s.memwb.instr, writeData := s.memwb.writeData } ∧ t.run = .running

/-- The counters at an edge that commits. Derived from 40_pipeline.md (R136, R141, R147, R148, R152, the spec's
decisions D8 and D9). -/
def Obligations.CountersOfACommittedCycle : Prop :=
  ∀ s t : State, s.commits = true → step s = .next t →
    t.fetched = (if s.stall && !s.params.fetchCountOnStall then s.fetched else s.fetched + 1) ∧
    t.retired = (if s.stall then s.retired else if s.taken then s.retired - 2 else s.retired + 1) ∧
    t.mispred = (if s.taken then s.mispred + 1 else s.mispred) ∧
    t.notTaken = (if s.exmem.instr.isBeq && !s.taken then s.notTaken + 1 else s.notTaken)

/-- The counter identities, after any number of edges of any loaded image under any parameters. Derived from
40_pipeline.md section 7 (R155, the spec's decisions D8 and D9). -/
def Obligations.CounterIdentitiesHoldOfEveryRun : Prop :=
  ∀ (img : List Word) (p : Config.Params) (n : Nat) (t : State),
    steps n ((State.boot img).withParams p) = .next t →
    t.retired = t.cycles - BitVec.ofNat 32 (stallCycles n ((State.boot img).withParams p)) - 3 * t.mispred ∧
    t.fetched = (if p.fetchCountOnStall then t.cycles
      else t.cycles - BitVec.ofNat 32 (stallCycles n ((State.boot img).withParams p)))

/-! ### Halt and faults -/

/-- With a HALT in MEM/WB the edge sets HALTED and changes nothing else, `cycles` included, whatever is in EX/MEM.
Derived from 40_pipeline.md section 1 (R132). -/
def Obligations.HaltInMemWbStopsTheCore : Prop :=
  ∀ s : State, s.rst = false → s.run = .running → s.memwb.instr.isHalt = true → step s = .next { s with run := .halted }

/-- A fetch-fault tag in MEM/WB faults the core before any stage runs, whatever is in EX/MEM. Derived from
40_pipeline.md section 1 (R133, the spec's decision D13) and 60_exceptions.md section 1 (R302, R304, decisions D12 and
D22). -/
def Obligations.TagInMemWbFaultsTheCore : Prop :=
  ∀ (s : State) (a : Word), s.rst = false → s.run = .running → s.memwb.instr = .ff a →
    step s = .next
      { s with run := .faulted, fault := some { info := .fetchOutOfRange a, cycle := s.cycles } }

/-- An LW or SW in EX/MEM with an address out of range faults the core in a cycle that runs, and nothing of the cycle
commits: not the writeback of the instruction in MEM/WB either. Derived from 40_pipeline.md section 5 (R146) and
60_exceptions.md section 1 (R301, R302, the spec's decisions D12 and D22). -/
def Obligations.AccessOutOfRangeFaultsTheCore : Prop :=
  ∀ (s : State) (w : Word), s.cycleRuns = true → s.exmem.instr = .word w → (opOf w = 2#10 ∨ opOf w = 3#10) →
    (s.exmem.aluResult.toInt < 0 ∨ 65536 ≤ s.exmem.aluResult.toInt) →
    step s = .next
      { s with
        run := .faulted
        fault := some { info := .memBounds s.exmem.aluResult w, cycle := s.cycles } }

/-- The run state is left in three ways only: HALTED by a HALT in MEM/WB, FAULTED by one of the two fatal causes.
Derived from 60_exceptions.md sections 1 and 4 (R301, R304, R317). -/
def Obligations.RunningEndsOnlyByHaltOrFatalCause : Prop :=
  ∀ s t : State, s.rst = false → s.run = .running → step s = .next t →
    (t.run = .halted ↔ s.memwb.instr.isHalt = true) ∧
    (t.run = .faulted ↔ s.memwb.instr.isTag = true ∨ (s.cycleRuns = true ∧ s.memFaults = true))

/-- HALTED and FAULTED are terminal: no number of edges changes anything, and a reset edge leaves them. Derived from
60_exceptions.md section 1 (R303, the spec's decisions D12 and D21). -/
def Obligations.TerminalStatesStayUntilReset : Prop :=
  ∀ (s : State) (n : Nat), s.run ≠ .running →
    (s.rst = false → steps n s = .next s) ∧ (s.rst = true → ∃ t, step s = .next t ∧ t.run = .running ∧ t.fault = none)

/-- The fault ports after each fatal cause, and without one. Derived from 60_exceptions.md sections 1 and 3 (R301,
R311, the spec's decisions D20 and D26). -/
def Obligations.OutputsShowTheFault : Prop :=
  ∀ (s : State) (a w : Word),
    ((s.raiseFatal (.memBounds a w)).outputs.faulted = true ∧ (s.raiseFatal (.memBounds a w)).outputs.faultCause = 1 ∧
      (s.raiseFatal (.memBounds a w)).outputs.faultAddr = a ∧ (s.raiseFatal (.memBounds a w)).outputs.faultInstr = w ∧
      (s.raiseFatal (.memBounds a w)).outputs.faultCycle = s.cycles) ∧
    ((s.raiseFatal (.fetchOutOfRange a)).outputs.faulted = true ∧
      (s.raiseFatal (.fetchOutOfRange a)).outputs.faultCause = 2 ∧
      (s.raiseFatal (.fetchOutOfRange a)).outputs.faultAddr = a ∧
      (s.raiseFatal (.fetchOutOfRange a)).outputs.faultInstr = 0 ∧
      (s.raiseFatal (.fetchOutOfRange a)).outputs.faultCycle = s.cycles) ∧
    (s.fault = none → s.outputs.faultCause = 0)

/-- The memory ports carry what the edge does: in a cycle that commits, an enabled load read reaches MEM/WB, an
enabled write is the one change of data memory, and an enabled fetch reaches IF/ID unless a stall or a taken branch
discards it. Derived from 20_memory.md section 6 (R88, the spec's decision D20). -/
def Obligations.MemoryPortsCarryTheCyclesAccesses : Prop :=
  ∀ s t : State, s.commits = true → step s = .next t →
    (s.memoryPorts.dmemRe = true → t.memwb.writeData = s.memoryPorts.dmemRdata) ∧
    (s.memoryPorts.dmemWe = true →
      t.dmem = Memory.write s.dmem s.memoryPorts.dmemAddr.toNat s.memoryPorts.dmemWdata) ∧
    (s.memoryPorts.dmemWe = false → t.dmem = s.dmem) ∧
    (s.memoryPorts.imemEn = true → s.stall = false → s.taken = false →
      t.ifid.instr = .word s.memoryPorts.imemRdata)

/-- The host reads any of the 65536 words of data memory while the core is halted, faulted or in reset, and none while
it runs. Derived from 60_exceptions.md section 3 (R311, the spec's decision D20). -/
def Obligations.HostReadsDataMemoryOnlyWhenStopped : Prop :=
  ∀ (s : State) (a : Nat), a < 65536 →
    (s.rst = true ∨ s.run = .halted ∨ s.run = .faulted → s.hostReadDmem a = some (Memory.read s.dmem a)) ∧
    (s.rst = false → s.run = .running → s.hostReadDmem a = none)

/-! ### Invariants and runs -/

/-- The invariant holds at reset and of every loaded image. Derived from 10_state.md section 8. -/
def Obligations.InvariantHoldsAtReset : Prop :=
  State.reset.inv = true ∧ ∀ img : List Word, img.length ≤ 65536 → (State.boot img).inv = true

/-- Every edge keeps the invariant, from every state that has it: both memories stay canonical, the fault record is
there exactly in FAULTED and names a cause the core raises, every tag is outside memory, and no HALT and no tag is
ever past writeback. Derived from 10_state.md sections 4 and 6, 40_pipeline.md sections 1 and 6. -/
def Obligations.InvariantIsKept : Prop :=
  ∀ s t : State, s.inv = true → step s = .next t → t.inv = true

/-- No latch value that R154 lists as unread reaches anything: two machines that differ only in such values stay so at
every edge. Derived from 40_pipeline.md section 7 (R154). -/
def Obligations.UnreadLatchValuesReachNothing : Prop :=
  ∀ s s' : State, s.observed = s'.observed →
    ∃ t t', step s = .next t ∧ step s' = .next t' ∧ t.observed = t'.observed

/-- ADD and NAND from a drained pipeline: five edges later the destination holds the result and every other register
is as before, unless an LW or SW behind with an address out of range faults in that cycle (`CompletesWith`). Derived
from 41_alu.md (R200, R202), 40_pipeline.md sections 5 and 7 (R146, R157) and 60_exceptions.md section 1 (R302, the
spec's decisions D12 and D22). -/
def Obligations.AluInstructionCompletesInFiveCycles : Prop :=
  ∀ (s : State) (fA fB : RegIdx) (fC : CField),
    (Ready s (.add fA fB fC) →
      CompletesWith (s.regs.write (destField fC) (s.regs.read fA + s.regs.read fB)) s) ∧
    (Ready s (.nand fA fB fC) →
      CompletesWith (s.regs.write (destField fC) (~~~(s.regs.read fA &&& s.regs.read fB))) s)

/-- LW from a drained pipeline: five edges later its destination holds the word at base plus offset and every other
register is as before, unless an LW or SW behind with an address out of range faults in that cycle (`CompletesWith`).
Derived from 42_loadstore.md (R220), 40_pipeline.md sections 5 and 7 (R146, R157) and 60_exceptions.md section 1
(R302, the spec's decisions D12 and D22). -/
def Obligations.LoadCompletesInFiveCycles : Prop :=
  ∀ (s : State) (fA fB : RegIdx) (fC : CField), Ready s (.lw fA fB fC) →
    inRange (effectiveAddress (s.regs.read fB) (sext16 fC)) = true →
    CompletesWith (s.regs.write fA (s.dmemRead (effectiveAddress (s.regs.read fB) (sext16 fC)))) s

/-- SW from a drained pipeline: four edges later data memory holds the data at base plus offset and every register is
as before, whatever follows. Derived from 42_loadstore.md (R222) and 40_pipeline.md section 7 (R157). -/
def Obligations.StoreCompletesInFourCycles : Prop :=
  ∀ (s : State) (fA fB : RegIdx) (fC : CField), Ready s (.sw fA fB fC) →
    inRange (effectiveAddress (s.regs.read fB) (sext16 fC)) = true →
    After 4 s fun t =>
      t.dmem = Memory.write s.dmem (effectiveAddress (s.regs.read fB) (sext16 fC)).toNat (s.regs.read fA) ∧
      t.regs = s.regs ∧ t.cycles = s.cycles + 4

/-- BEQ from a drained pipeline: four edges later the pc is at own address + 1 + offset where the registers are equal,
with the three younger latches flushed, and sequential where they are not, whatever follows. Derived from
43_control.md (R240, R242) and 40_pipeline.md sections 5 and 7. -/
def Obligations.BranchResolvesInFourCycles : Prop :=
  ∀ (s : State) (fA fB : RegIdx) (fC : CField), Ready s (.beq fA fB fC) →
    After 4 s fun t =>
      t.regs = s.regs ∧ t.dmem = s.dmem ∧
      (s.regs.read fA = s.regs.read fB →
        t.pc = s.pc + 1 + sext16 fC ∧ t.mispred = s.mispred + 1 ∧ t.ifid = .bubble ∧ t.idex = .bubble ∧
        t.exmem = .bubble) ∧
      (s.regs.read fA ≠ s.regs.read fB → t.pc = s.pc + 4 ∧ t.notTaken = s.notTaken + 1)

/-- HALT from a drained pipeline: the core stops after four cycles, no register, no memory word changed, whatever
follows the HALT. Derived from 40_pipeline.md section 7 (R158, the spec's decision D24) and 43_control.md (R246). -/
def Obligations.HaltDrainsInFourCycles : Prop :=
  ∀ (s : State) (fA fB : RegIdx) (fC : CField), Ready s (.halt fA fB fC) →
    After 5 s fun t =>
      t.run = .halted ∧ t.cycles = s.cycles + 4 ∧ t.regs = s.regs ∧ t.dmem = s.dmem ∧ t.fault = s.fault

/-- A fetch outside instruction memory from a drained pipeline: the core faults after four cycles and records that
address, with no register and no memory word changed, whatever is fetched behind it. Derived from 40_pipeline.md
sections 1 and 2 (R133, R135, the spec's decision D13) and 60_exceptions.md section 1 (R301, R302). -/
def Obligations.FetchOutOfRangeFaultsAfterFourCycles : Prop :=
  ∀ s : State, s.rst = false → s.run = .running → s.drained = true → (s.pc.toInt < 0 ∨ 65536 ≤ s.pc.toInt) →
    After 5 s fun t =>
      t.run = .faulted ∧ t.fault = some { info := .fetchOutOfRange s.pc, cycle := s.cycles + 4 } ∧
      t.cycles = s.cycles + 4 ∧ t.regs = s.regs ∧ t.dmem = s.dmem

/-- JALR, NOOP and an unrecognized opcode from a drained pipeline: five edges later every register is as before,
unless an LW or SW behind with an address out of range faults in that cycle (`CompletesWith`). Derived from
43_control.md (R243, R247, R249, the spec's decision D14), 40_pipeline.md sections 5 and 7 (R146, R157) and
60_exceptions.md section 1 (R302, the spec's decisions D12 and D22). -/
def Obligations.NoEffectInstructionChangesNothing : Prop :=
  ∀ (s : State) (i : Instr), i.wf = true → (i.opcode = 5#10 ∨ 7 ≤ i.opcode.toNat) → Ready s i → CompletesWith s.regs s

/-! ### The cycle and the counters, from any state -/

/-- A committed cycle with neither a stall nor a taken branch, from any state: IF/ID takes the fetched word or the tag
of a pc outside memory, ID/EX the decode of IF/ID's slot, EX/MEM the ALU's value of ID/EX's slot with forwarded
operands, MEM/WB the loaded word of an LW or the ALU result, WB/END what MEM/WB held. A tag's store data is left open
(log 10). Derived from 40_pipeline.md sections 2 to 6 (R134, R135, R137, R140, R145, R150, the spec's decisions D13,
D15, D16, D28 and D29). -/
def Obligations.OrdinaryCycleMovesEveryLatch : Prop :=
  ∀ s t : State, s.commits = true → s.stall = false → s.taken = false → step s = .next t →
    (0 ≤ s.pc.toInt ∧ s.pc.toInt < 65536 →
      t.ifid = { instr := .word (Memory.read s.imem s.pc.toNat), pcPlus1 := s.pc + 1 }) ∧
    (¬ (0 ≤ s.pc.toInt ∧ s.pc.toInt < 65536) → t.ifid = { instr := .ff s.pc, pcPlus1 := s.pc + 1 }) ∧
    (∀ w, s.ifid.instr = .word w →
      t.idex =
        { instr := .word w
          pcPlus1 := s.ifid.pcPlus1
          readRegA := s.regs.read (fAOf w)
          readRegB := s.regs.read (fBOf w)
          offset := sext16 (fCOf w) }) ∧
    (∀ a, s.ifid.instr = .ff a →
      t.idex = { instr := .ff a, pcPlus1 := s.ifid.pcPlus1, readRegA := 0, readRegB := 0, offset := 0 }) ∧
    (∀ w, s.idex.instr = .word w →
      t.exmem =
        { instr := .word w
          branchTarget := s.idex.pcPlus1 + s.idex.offset
          aluResult := AluValue w (s.fwd (fAOf w) s.idex.readRegA) (s.fwd (fBOf w) s.idex.readRegB) s.idex.offset
          storeData := s.fwd (fAOf w) s.idex.readRegA }) ∧
    (∀ a, s.idex.instr = .ff a →
      t.exmem.instr = .ff a ∧ t.exmem.branchTarget = s.idex.pcPlus1 + s.idex.offset ∧ t.exmem.aluResult = 0) ∧
    t.memwb =
      { instr := s.exmem.instr
        writeData :=
          if s.exmem.instr.isLw then Memory.read s.dmem s.exmem.aluResult.toNat else s.exmem.aluResult } ∧
    t.wbend = { instr := s.memwb.instr, writeData := s.memwb.writeData }

/-- Every edge without reset keeps the counter identities, from every state that has them: the number of stall cycles
rises by 1 at a committed stall and stays otherwise. Derived from 40_pipeline.md section 7 (R155, the spec's decisions
D8 and D9). -/
def Obligations.CounterIdentitiesAreKept : Prop :=
  ∀ (s t : State) (stalls : Word), s.rst = false → CountersAgree stalls s → step s = .next t →
    CountersAgree (if s.commits && s.stall then stalls + 1 else stalls) t

/-- The counter identities hold with no stall at reset: of every loaded image under any parameters, and after a reset
edge from any state. Derived from 10_state.md section 8 (R50, the spec's decision D10) and 40_pipeline.md section 7
(R155). -/
def Obligations.CounterIdentitiesHoldAtReset : Prop :=
  (∀ (img : List Word) (p : Config.Params), CountersAgree 0 ((State.boot img).withParams p)) ∧
    ∀ s t : State, s.rst = true → step s = .next t → CountersAgree 0 t
end

