-- ==== Sys2Proof/Laws/Codec.lean ====
section
/-! SUPPORT. The codec: extracting a field of an assembled word gives the field, a word is the assembly of its fields, and
the decoder loses no bit of a word. -/

namespace Sys2Proof

/-- The bits of an assembled word, field by field. -/
theorem getLsbD_joinFields (op : OpField) (a b : RegIdx) (c : CField) (k : Nat) (hk : k < 32) :
    (joinFields op a b c).getLsbD k =
      if k < 16 then c.getLsbD k else if k < 19 then b.getLsbD (k - 16) else if k < 22 then a.getLsbD (k - 19)
      else op.getLsbD (k - 22) := by
  simp only [joinFields, zext, BitVec.getLsbD_or, BitVec.getLsbD_shiftLeft, BitVec.getLsbD_setWidth, hk, decide_true,
    Bool.true_and]
  split
  · simp [show k < 22 by omega, show k < 19 by omega, show k < 16 by omega]
  · rw [BitVec.getLsbD_of_ge c k (by omega)]
    split
    · simp [show k < 22 by omega, show k < 19 by omega, show ¬ k < 16 by omega, show k - 16 < 32 by omega]
    · rw [BitVec.getLsbD_of_ge b (k - 16) (by omega)]
      split
      · simp [show k < 22 by omega, show ¬ k < 19 by omega, show k - 19 < 32 by omega]
      · rw [BitVec.getLsbD_of_ge a (k - 19) (by omega)]
        simp [show ¬ k < 22 by omega, show k - 22 < 32 by omega]

@[simp] theorem opOf_joinFields (op : OpField) (a b : RegIdx) (c : CField) : opOf (joinFields op a b c) = op := by
  apply BitVec.eq_of_getLsbD_eq
  intro k hk
  simp [opOf, hk, getLsbD_joinFields _ _ _ _ (22 + k) (by omega), show ¬ 22 + k < 16 by omega, show ¬ 22 + k < 19 by omega]

@[simp] theorem fAOf_joinFields (op : OpField) (a b : RegIdx) (c : CField) : fAOf (joinFields op a b c) = a := by
  apply BitVec.eq_of_getLsbD_eq
  intro k hk
  simp [fAOf, hk, getLsbD_joinFields _ _ _ _ (19 + k) (by omega), show ¬ 19 + k < 16 by omega, show 19 + k < 22 by omega]

@[simp] theorem fBOf_joinFields (op : OpField) (a b : RegIdx) (c : CField) : fBOf (joinFields op a b c) = b := by
  apply BitVec.eq_of_getLsbD_eq
  intro k hk
  simp [fBOf, hk, getLsbD_joinFields _ _ _ _ (16 + k) (by omega), show 16 + k < 19 by omega]

@[simp] theorem fCOf_joinFields (op : OpField) (a b : RegIdx) (c : CField) : fCOf (joinFields op a b c) = c := by
  apply BitVec.eq_of_getLsbD_eq
  intro k hk
  simp [fCOf, hk, getLsbD_joinFields _ _ _ _ k (by omega)]

/-- A word is the assembly of its four fields. -/
theorem joinFields_fields (w : Word) : joinFields (opOf w) (fAOf w) (fBOf w) (fCOf w) = w := by
  apply BitVec.eq_of_getLsbD_eq
  intro k hk
  rw [getLsbD_joinFields _ _ _ _ k hk]
  simp only [opOf, fAOf, fBOf, fCOf, BitVec.getLsbD_extractLsb']
  split
  · simp [*]
  · split
    · simp [show k - 16 < 3 by omega, show 16 + (k - 16) = k by omega]
    · split
      · simp [show k - 19 < 3 by omega, show 19 + (k - 19) = k by omega]
      · simp [show k - 22 < 10 by omega, show 22 + (k - 22) = k by omega]

/-! ### The opcode map -/

@[simp] theorem opcode_ofFields (op : OpField) (a b : RegIdx) (c : CField) : (ofFields op a b c).opcode = op := by
  rw [ofFields]
  simp only [apply_ite Instr.opcode]
  simp only [Instr.opcode, ite_self]
  split_ifs <;> first | rfl | (symm; assumption)

@[simp] theorem fA_ofFields (op : OpField) (a b : RegIdx) (c : CField) : (ofFields op a b c).fA = a := by
  rw [ofFields]
  simp only [apply_ite Instr.fA]
  simp only [Instr.fA, ite_self]

@[simp] theorem fB_ofFields (op : OpField) (a b : RegIdx) (c : CField) : (ofFields op a b c).fB = b := by
  rw [ofFields]
  simp only [apply_ite Instr.fB]
  simp only [Instr.fB, ite_self]

@[simp] theorem fC_ofFields (op : OpField) (a b : RegIdx) (c : CField) : (ofFields op a b c).fC = c := by
  rw [ofFields]
  simp only [apply_ite Instr.fC]
  simp only [Instr.fC, ite_self]

/-- No bit of a word is lost by decoding it. -/
@[simp] theorem encode_decode (w : Word) : encode (decode w) = w := by
  simp [encode, decode, joinFields_fields]

@[simp] theorem opOf_encode (i : Instr) : opOf (encode i) = i.opcode := opOf_joinFields ..
@[simp] theorem fAOf_encode (i : Instr) : fAOf (encode i) = i.fA := fAOf_joinFields ..
@[simp] theorem fBOf_encode (i : Instr) : fBOf (encode i) = i.fB := fBOf_joinFields ..
@[simp] theorem fCOf_encode (i : Instr) : fCOf (encode i) = i.fC := fCOf_joinFields ..

/-- A word's instruction has the word's opcode. -/
@[simp] theorem opcode_decode (w : Word) : (decode w).opcode = opOf w := opcode_ofFields ..
@[simp] theorem fA_decode (w : Word) : (decode w).fA = fAOf w := fA_ofFields ..
@[simp] theorem fB_decode (w : Word) : (decode w).fB = fBOf w := fB_ofFields ..
@[simp] theorem fC_decode (w : Word) : (decode w).fC = fCOf w := fC_ofFields ..

/-- A "data" row's opcode is none of the eight meaningful ones. -/
theorem ge8_of_topBitIs {op : OpField} {k : Nat} (hk : 3 ≤ k) (h : topBitIs op k = true) : 8 ≤ op.toNat := by
  simp only [topBitIs, beq_iff_eq] at h
  have h1 : 2 ^ 3 ≤ 2 ^ k := Nat.pow_le_pow_right (by omega) hk
  by_contra hc
  rw [Nat.div_eq_of_lt (by omega)] at h
  omega

/-- An opcode of 8 or more has its highest set bit at one of the places that the "data" rows name. -/
theorem topBitIs_of_ge8 {op : OpField} (h : 8 ≤ op.toNat) :
    topBitIs op 9 = true ∨ topBitIs op 8 = true ∨ topBitIs op 7 = true ∨ topBitIs op 6 = true ∨ topBitIs op 5 = true ∨
      topBitIs op 4 = true ∨ topBitIs op 3 = true := by
  have := op.isLt
  simp only [topBitIs, beq_iff_eq]
  omega

/-- Every opcode value selects a well-formed term. -/
theorem ofFields_wf (op : OpField) (a b : RegIdx) (c : CField) : (ofFields op a b c).wf = true := by
  rw [ofFields]
  simp only [apply_ite Instr.wf]
  simp only [Instr.wf]
  by_cases h : op.toNat < 8
  · have : op = 0#10 ∨ op = 1#10 ∨ op = 2#10 ∨ op = 3#10 ∨ op = 4#10 ∨ op = 5#10 ∨ op = 6#10 ∨ op = 7#10 := by
      bv_omega
    rcases this with rfl | rfl | rfl | rfl | rfl | rfl | rfl | rfl <;> rfl
  · have ne : ∀ k : OpField, k.toNat < 8 → op ≠ k := by rintro k hk rfl; exact h hk
    simp only [ne 0#10 (by decide), ne 1#10 (by decide), ne 2#10 (by decide), ne 3#10 (by decide), ne 4#10 (by decide), ne 5#10 (by decide),
      ne 6#10 (by decide), ne 7#10 (by decide), if_false]
    rcases topBitIs_of_ge8 (Nat.le_of_not_lt h) with h | h | h | h | h | h | h <;> simp [h]

/-- What a decoded term is: its encoding is the word, its opcode the word's, and a "data" term's opcode is 8 or more. -/
theorem decode_spec (w : Word) :
    encode (decode w) = w ∧ (decode w).opcode = opOf w ∧ (decode w).wf = true :=
  ⟨encode_decode w, opcode_decode w, ofFields_wf ..⟩

/-! ### Opcodes 0 to 7 decode to their instruction -/

theorem decode_of_op0 {w : Word} (h : opOf w = 0#10) : decode w = .add (fAOf w) (fBOf w) (fCOf w) := by simp [decode, ofFields, h]
theorem decode_of_op1 {w : Word} (h : opOf w = 1#10) : decode w = .nand (fAOf w) (fBOf w) (fCOf w) := by simp [decode, ofFields, h]
theorem decode_of_op2 {w : Word} (h : opOf w = 2#10) : decode w = .lw (fAOf w) (fBOf w) (fCOf w) := by simp [decode, ofFields, h]
theorem decode_of_op3 {w : Word} (h : opOf w = 3#10) : decode w = .sw (fAOf w) (fBOf w) (fCOf w) := by simp [decode, ofFields, h]
theorem decode_of_op4 {w : Word} (h : opOf w = 4#10) : decode w = .beq (fAOf w) (fBOf w) (fCOf w) := by simp [decode, ofFields, h]
theorem decode_of_op5 {w : Word} (h : opOf w = 5#10) : decode w = .jalr (fAOf w) (fBOf w) (fCOf w) := by simp [decode, ofFields, h]
theorem decode_of_op6 {w : Word} (h : opOf w = 6#10) : decode w = .halt (fAOf w) (fBOf w) (fCOf w) := by simp [decode, ofFields, h]
theorem decode_of_op7 {w : Word} (h : opOf w = 7#10) : decode w = .noop (fAOf w) (fBOf w) (fCOf w) := by simp [decode, ofFields, h]

end Sys2Proof
end

