-- ==== Sys2Proof/Laws/Memory.lean ====
section
/-! SUPPORT. Memories and registers: every memory operation keeps the canonical form, and a read after a write. -/

namespace Sys2Proof.Machine

open Sys2Proof.Config

/-! ### Canonical form -/

theorem Memory.wfFrom_mono {m : Memory} {lo hi : Nat} (h : Memory.wfFrom hi m = true) (le : lo ≤ hi) :
    Memory.wfFrom lo m = true := by
  cases m with
  | nil => rfl
  | cons c rest =>
    simp only [Memory.wfFrom, Bool.and_eq_true, decide_eq_true_eq] at h ⊢
    exact ⟨⟨⟨le.trans h.1.1.1, h.1.1.2⟩, h.1.2⟩, h.2⟩

theorem Memory.wfFrom_cons {m : Memory} {lo a : Nat} (v : Word) (h : Memory.wfFrom (a + 1) m = true) (le : lo ≤ a)
    (lt : a < memSize) : Memory.wfFrom lo (Memory.cons a v m) = true := by
  unfold Memory.cons
  split
  · exact Memory.wfFrom_mono h (by omega)
  · simp [Memory.wfFrom, *]

theorem Memory.wfFrom_write {m : Memory} {lo a : Nat} (v : Word) (h : Memory.wfFrom lo m = true) (le : lo ≤ a)
    (lt : a < memSize) : Memory.wfFrom lo (Memory.write m a v) = true := by
  induction m generalizing lo with
  | nil => exact Memory.wfFrom_cons v rfl le lt
  | cons c rest ih =>
    obtain ⟨b, x⟩ := c
    simp only [Memory.wfFrom, Bool.and_eq_true, decide_eq_true_eq] at h
    unfold Memory.write
    split
    · apply Memory.wfFrom_cons v _ le lt
      simp only [Memory.wfFrom, Bool.and_eq_true, decide_eq_true_eq]
      exact ⟨⟨⟨by omega, h.1.1.2⟩, h.1.2⟩, h.2⟩
    · split
      · subst_vars
        exact Memory.wfFrom_cons v h.2 le lt
      · simp only [Memory.wfFrom, Bool.and_eq_true, decide_eq_true_eq]
        exact ⟨⟨⟨h.1.1.1, h.1.1.2⟩, h.1.2⟩, ih h.2 (by omega)⟩

/-- A write in range keeps the canonical form. -/
theorem Memory.wf_write {m : Memory} (a : Nat) (v : Word) (h : m.wf = true) (lt : a < memSize) :
    (Memory.write m a v).wf = true := Memory.wfFrom_write v h (Nat.zero_le a) lt

theorem Memory.wfFrom_ofImageFrom (img : List Word) (base : Nat) (h : base + img.length ≤ memSize) :
    Memory.wfFrom base (Memory.ofImageFrom base img) = true := by
  induction img generalizing base with
  | nil => rfl
  | cons v rest ih =>
    simp only [List.length_cons] at h
    exact Memory.wfFrom_cons v (ih (base + 1) (by omega)) (Nat.le_refl _) (by omega)

/-- A loaded image is in canonical form. -/
theorem Memory.wf_ofImage (img : List Word) (h : img.length ≤ memSize) : (Memory.ofImage img).wf = true :=
  Memory.wfFrom_ofImageFrom img 0 (by omega)

theorem Memory.wf_nil : Memory.wf [] = true := rfl

/-! ### Reads -/

/-- Below a canonical memory's first address every address is unlisted. -/
theorem Memory.read_below {m : Memory} {lo a : Nat} (h : Memory.wfFrom lo m = true) (lt : a < lo) :
    Memory.read m a = Memory.unlisted := by
  induction m generalizing lo with
  | nil => rfl
  | cons c rest ih =>
    obtain ⟨b, x⟩ := c
    simp only [Memory.wfFrom, Bool.and_eq_true, decide_eq_true_eq] at h
    simp only [Memory.read, show a ≠ b by omega, if_false]
    exact ih h.2 (by omega)

theorem Memory.read_cons_self {m : Memory} {a : Nat} (v : Word) (h : Memory.read m a = Memory.unlisted) :
    Memory.read (Memory.cons a v m) a = v := by
  unfold Memory.cons
  split
  · simp [*]
  · simp [Memory.read]

theorem Memory.read_cons_other (m : Memory) {a b : Nat} (v : Word) (ne : b ≠ a) :
    Memory.read (Memory.cons a v m) b = Memory.read m b := by
  unfold Memory.cons
  split <;> simp [Memory.read, ne]

/-- A write leaves every other address as it was. -/
@[simp] theorem Memory.read_write_other (m : Memory) {a b : Nat} (v : Word) (ne : b ≠ a) :
    Memory.read (Memory.write m a v) b = Memory.read m b := by
  induction m with
  | nil => simp [Memory.write, Memory.read_cons_other _ _ ne]
  | cons c rest ih =>
    obtain ⟨d, x⟩ := c
    unfold Memory.write
    split
    · exact Memory.read_cons_other _ _ ne
    · split
      · subst_vars
        rw [Memory.read_cons_other _ _ ne]
        simp [Memory.read, ne]
      · simp [Memory.read, ih]

theorem Memory.read_write_from {m : Memory} {lo : Nat} (a : Nat) (v : Word) (h : Memory.wfFrom lo m = true) :
    Memory.read (Memory.write m a v) a = v := by
  induction m generalizing lo with
  | nil => exact Memory.read_cons_self v rfl
  | cons c rest ih =>
    obtain ⟨b, x⟩ := c
    simp only [Memory.wfFrom, Bool.and_eq_true, decide_eq_true_eq] at h
    unfold Memory.write
    split
    · apply Memory.read_cons_self
      simp only [Memory.read, show a ≠ b by omega, if_false]
      exact Memory.read_below h.2 (by omega)
    · split
      · subst_vars
        exact Memory.read_cons_self v (Memory.read_below h.2 (by omega))
      · simp only [Memory.read, *, if_false]
        exact ih h.2

/-- A read of the address just written gives the word written. -/
theorem Memory.read_write_self {m : Memory} (a : Nat) (v : Word) (h : m.wf = true) :
    Memory.read (Memory.write m a v) a = v := Memory.read_write_from a v h

theorem Memory.read_ofImageFrom (img : List Word) (base a : Nat) (h : base + img.length ≤ memSize) :
    Memory.read (Memory.ofImageFrom base img) (base + a) = img.getD a 0 := by
  induction img generalizing base a with
  | nil => simp [Memory.ofImageFrom, Memory.read, Memory.unlisted]
  | cons v rest ih =>
    simp only [List.length_cons] at h
    cases a with
    | zero =>
      simpa [Memory.ofImageFrom] using
        Memory.read_cons_self v (Memory.read_below (Memory.wfFrom_ofImageFrom rest (base + 1) (by omega)) (by omega))
    | succ k =>
      rw [Memory.ofImageFrom, Memory.read_cons_other _ _ (by omega), show base + (k + 1) = (base + 1) + k by omega,
        ih (base + 1) k (by omega)]
      simp

/-! ### Registers -/

/-- Every register, `r0` too, reads as what was written to it. -/
@[simp] theorem RegFile.read_write_self (regs : RegFile) (r : RegIdx) (v : Word) : (regs.write r v).read r = v := by
  simp [RegFile.read, RegFile.write]

/-- A write leaves every other register as it was. -/
@[simp] theorem RegFile.read_write_other (regs : RegFile) {r q : RegIdx} (v : Word) (ne : r ≠ q) :
    (regs.write r v).read q = regs.read q := by
  have : r.toNat ≠ q.toNat := fun e => ne (BitVec.eq_of_toNat_eq e)
  simp [RegFile.read, RegFile.write, Vector.getElem_set_ne, this]

@[simp] theorem RegFile.writeDest_some (regs : RegFile) (r : RegIdx) (v : Word) :
    regs.writeDest (some r) v = regs.write r v := rfl

@[simp] theorem RegFile.writeDest_none (regs : RegFile) (v : Word) : regs.writeDest none v = regs := rfl

/-- A register after the write of a destination. -/
theorem RegFile.read_writeDest (regs : RegFile) (dest : Option RegIdx) (r : RegIdx) (v : Word) :
    (regs.writeDest dest v).read r = if dest = some r then v else regs.read r := by
  cases dest with
  | none => simp
  | some q =>
    by_cases e : q = r
    · subst e; simp
    · simp [e]

/-! ### The address range -/

/-- An address is in range exactly when its unsigned value is below `MEMSIZE`. -/
theorem inRange_iff (a : Word) : inRange a = true ↔ a.toNat < memSize := by
  have := a.isLt
  simp only [inRange, Bool.and_eq_true, decide_eq_true_eq]
  simp only [BitVec.toInt_eq_toNat_cond, memSize]
  split <;> omega

/-- The same, of the signed value (20_memory.md R80). -/
theorem inRange_iff_toInt (a : Word) : inRange a = true ↔ 0 ≤ a.toInt ∧ a.toInt < 65536 := by
  simp only [inRange, Bool.and_eq_true, decide_eq_true_eq]
  simp only [memSize, Nat.cast_ofNat]

theorem inRange_lt {a : Word} (h : inRange a = true) : a.toNat < memSize := (inRange_iff a).1 h

end Sys2Proof.Machine
end

