-- ==== Sys2Proof/Laws/PerInstr.lean ====
section
/-! SUPPORT. The per-instruction family: the word of an instruction carries its opcode and its three fields. -/

namespace Sys2Proof.Laws

/-- The extractors of R101 and R102 read back from the word of `i` the opcode and the fields of `i`. -/
def WordFields.Statement (i : Instr) : Prop :=
  opOf (encode i) = i.opcode ∧ fAOf (encode i) = i.fA ∧ fBOf (encode i) = i.fB ∧ fCOf (encode i) = i.fC

theorem WordFields.add (fA fB : RegIdx) (fC : CField) : WordFields.Statement (.add fA fB fC) := by
  simp [WordFields.Statement]
theorem WordFields.nand (fA fB : RegIdx) (fC : CField) : WordFields.Statement (.nand fA fB fC) := by
  simp [WordFields.Statement]
theorem WordFields.lw (fA fB : RegIdx) (fC : CField) : WordFields.Statement (.lw fA fB fC) := by
  simp [WordFields.Statement]
theorem WordFields.sw (fA fB : RegIdx) (fC : CField) : WordFields.Statement (.sw fA fB fC) := by
  simp [WordFields.Statement]
theorem WordFields.beq (fA fB : RegIdx) (fC : CField) : WordFields.Statement (.beq fA fB fC) := by
  simp [WordFields.Statement]
theorem WordFields.jalr (fA fB : RegIdx) (fC : CField) : WordFields.Statement (.jalr fA fB fC) := by
  simp [WordFields.Statement]
theorem WordFields.halt (fA fB : RegIdx) (fC : CField) : WordFields.Statement (.halt fA fB fC) := by
  simp [WordFields.Statement]
theorem WordFields.noop (fA fB : RegIdx) (fC : CField) : WordFields.Statement (.noop fA fB fC) := by
  simp [WordFields.Statement]
theorem WordFields.data31 (op : OpField) (fA fB : RegIdx) (fC : CField) : WordFields.Statement (.data31 op fA fB fC) := by
  simp [WordFields.Statement]
theorem WordFields.data30 (op : OpField) (fA fB : RegIdx) (fC : CField) : WordFields.Statement (.data30 op fA fB fC) := by
  simp [WordFields.Statement]
theorem WordFields.data29 (op : OpField) (fA fB : RegIdx) (fC : CField) : WordFields.Statement (.data29 op fA fB fC) := by
  simp [WordFields.Statement]
theorem WordFields.data28 (op : OpField) (fA fB : RegIdx) (fC : CField) : WordFields.Statement (.data28 op fA fB fC) := by
  simp [WordFields.Statement]
theorem WordFields.data27 (op : OpField) (fA fB : RegIdx) (fC : CField) : WordFields.Statement (.data27 op fA fB fC) := by
  simp [WordFields.Statement]
theorem WordFields.data26 (op : OpField) (fA fB : RegIdx) (fC : CField) : WordFields.Statement (.data26 op fA fB fC) := by
  simp [WordFields.Statement]
theorem WordFields.data25 (op : OpField) (fA fB : RegIdx) (fC : CField) : WordFields.Statement (.data25 op fA fB fC) := by
  simp [WordFields.Statement]

end Sys2Proof.Laws
end

