-- ==== Sys2Proof/Laws/State.lean ====
section
/-! SUPPORT. What each update of the state does to each field: one lemma per field per update, true by rfl. -/

namespace Sys2Proof.Machine

/-! ### dmemWrite -/

@[simp] theorem dmemWrite_regs (s : State) (a v : Word) : (s.dmemWrite a v).regs = s.regs := rfl
@[simp] theorem dmemWrite_pc (s : State) (a v : Word) : (s.dmemWrite a v).pc = s.pc := rfl
@[simp] theorem dmemWrite_imem (s : State) (a v : Word) : (s.dmemWrite a v).imem = s.imem := rfl
@[simp] theorem dmemWrite_dmem (s : State) (a v : Word) : (s.dmemWrite a v).dmem = Memory.write s.dmem a.toNat v := rfl
@[simp] theorem dmemWrite_ifid (s : State) (a v : Word) : (s.dmemWrite a v).ifid = s.ifid := rfl
@[simp] theorem dmemWrite_idex (s : State) (a v : Word) : (s.dmemWrite a v).idex = s.idex := rfl
@[simp] theorem dmemWrite_exmem (s : State) (a v : Word) : (s.dmemWrite a v).exmem = s.exmem := rfl
@[simp] theorem dmemWrite_memwb (s : State) (a v : Word) : (s.dmemWrite a v).memwb = s.memwb := rfl
@[simp] theorem dmemWrite_wbend (s : State) (a v : Word) : (s.dmemWrite a v).wbend = s.wbend := rfl
@[simp] theorem dmemWrite_cycles (s : State) (a v : Word) : (s.dmemWrite a v).cycles = s.cycles := rfl
@[simp] theorem dmemWrite_fetched (s : State) (a v : Word) : (s.dmemWrite a v).fetched = s.fetched := rfl
@[simp] theorem dmemWrite_retired (s : State) (a v : Word) : (s.dmemWrite a v).retired = s.retired := rfl
@[simp] theorem dmemWrite_notTaken (s : State) (a v : Word) : (s.dmemWrite a v).notTaken = s.notTaken := rfl
@[simp] theorem dmemWrite_mispred (s : State) (a v : Word) : (s.dmemWrite a v).mispred = s.mispred := rfl
@[simp] theorem dmemWrite_run (s : State) (a v : Word) : (s.dmemWrite a v).run = s.run := rfl
@[simp] theorem dmemWrite_fault (s : State) (a v : Word) : (s.dmemWrite a v).fault = s.fault := rfl
@[simp] theorem dmemWrite_rst (s : State) (a v : Word) : (s.dmemWrite a v).rst = s.rst := rfl
@[simp] theorem dmemWrite_params (s : State) (a v : Word) : (s.dmemWrite a v).params = s.params := rfl
@[simp] theorem dmemWrite_stage (s : State) (a v : Word) : (s.dmemWrite a v).stage = s.stage := rfl

/-! ### raiseFatal -/

@[simp] theorem raiseFatal_regs (s : State) (info : Fatal) : (s.raiseFatal info).regs = s.regs := rfl
@[simp] theorem raiseFatal_pc (s : State) (info : Fatal) : (s.raiseFatal info).pc = s.pc := rfl
@[simp] theorem raiseFatal_imem (s : State) (info : Fatal) : (s.raiseFatal info).imem = s.imem := rfl
@[simp] theorem raiseFatal_dmem (s : State) (info : Fatal) : (s.raiseFatal info).dmem = s.dmem := rfl
@[simp] theorem raiseFatal_ifid (s : State) (info : Fatal) : (s.raiseFatal info).ifid = s.ifid := rfl
@[simp] theorem raiseFatal_idex (s : State) (info : Fatal) : (s.raiseFatal info).idex = s.idex := rfl
@[simp] theorem raiseFatal_exmem (s : State) (info : Fatal) : (s.raiseFatal info).exmem = s.exmem := rfl
@[simp] theorem raiseFatal_memwb (s : State) (info : Fatal) : (s.raiseFatal info).memwb = s.memwb := rfl
@[simp] theorem raiseFatal_wbend (s : State) (info : Fatal) : (s.raiseFatal info).wbend = s.wbend := rfl
@[simp] theorem raiseFatal_cycles (s : State) (info : Fatal) : (s.raiseFatal info).cycles = s.cycles := rfl
@[simp] theorem raiseFatal_fetched (s : State) (info : Fatal) : (s.raiseFatal info).fetched = s.fetched := rfl
@[simp] theorem raiseFatal_retired (s : State) (info : Fatal) : (s.raiseFatal info).retired = s.retired := rfl
@[simp] theorem raiseFatal_notTaken (s : State) (info : Fatal) : (s.raiseFatal info).notTaken = s.notTaken := rfl
@[simp] theorem raiseFatal_mispred (s : State) (info : Fatal) : (s.raiseFatal info).mispred = s.mispred := rfl
@[simp] theorem raiseFatal_run (s : State) (info : Fatal) : (s.raiseFatal info).run = .faulted := rfl
@[simp] theorem raiseFatal_fault (s : State) (info : Fatal) : (s.raiseFatal info).fault = some { info := info, cycle := s.cycles } := rfl
@[simp] theorem raiseFatal_rst (s : State) (info : Fatal) : (s.raiseFatal info).rst = s.rst := rfl
@[simp] theorem raiseFatal_params (s : State) (info : Fatal) : (s.raiseFatal info).params = s.params := rfl
@[simp] theorem raiseFatal_stage (s : State) (info : Fatal) : (s.raiseFatal info).stage = s.stage := rfl

/-! ### haltClock -/

@[simp] theorem haltClock_regs (s : State) : (haltClock s).regs = s.regs := rfl
@[simp] theorem haltClock_pc (s : State) : (haltClock s).pc = s.pc := rfl
@[simp] theorem haltClock_imem (s : State) : (haltClock s).imem = s.imem := rfl
@[simp] theorem haltClock_dmem (s : State) : (haltClock s).dmem = s.dmem := rfl
@[simp] theorem haltClock_ifid (s : State) : (haltClock s).ifid = s.ifid := rfl
@[simp] theorem haltClock_idex (s : State) : (haltClock s).idex = s.idex := rfl
@[simp] theorem haltClock_exmem (s : State) : (haltClock s).exmem = s.exmem := rfl
@[simp] theorem haltClock_memwb (s : State) : (haltClock s).memwb = s.memwb := rfl
@[simp] theorem haltClock_wbend (s : State) : (haltClock s).wbend = s.wbend := rfl
@[simp] theorem haltClock_cycles (s : State) : (haltClock s).cycles = s.cycles := rfl
@[simp] theorem haltClock_fetched (s : State) : (haltClock s).fetched = s.fetched := rfl
@[simp] theorem haltClock_retired (s : State) : (haltClock s).retired = s.retired := rfl
@[simp] theorem haltClock_notTaken (s : State) : (haltClock s).notTaken = s.notTaken := rfl
@[simp] theorem haltClock_mispred (s : State) : (haltClock s).mispred = s.mispred := rfl
@[simp] theorem haltClock_run (s : State) : (haltClock s).run = .halted := rfl
@[simp] theorem haltClock_fault (s : State) : (haltClock s).fault = s.fault := rfl
@[simp] theorem haltClock_rst (s : State) : (haltClock s).rst = s.rst := rfl
@[simp] theorem haltClock_params (s : State) : (haltClock s).params = s.params := rfl
@[simp] theorem haltClock_stage (s : State) : (haltClock s).stage = s.stage := rfl

/-! ### fetchStage -/

@[simp] theorem fetchStage_regs (slot : Slot) (s : State) : (fetchStage slot s).regs = s.regs := rfl
@[simp] theorem fetchStage_pc (slot : Slot) (s : State) : (fetchStage slot s).pc = s.pc + 1 := rfl
@[simp] theorem fetchStage_imem (slot : Slot) (s : State) : (fetchStage slot s).imem = s.imem := rfl
@[simp] theorem fetchStage_dmem (slot : Slot) (s : State) : (fetchStage slot s).dmem = s.dmem := rfl
@[simp] theorem fetchStage_ifid (slot : Slot) (s : State) : (fetchStage slot s).ifid = { instr := slot, pcPlus1 := s.pc + 1 } := rfl
@[simp] theorem fetchStage_idex (slot : Slot) (s : State) : (fetchStage slot s).idex = s.idex := rfl
@[simp] theorem fetchStage_exmem (slot : Slot) (s : State) : (fetchStage slot s).exmem = s.exmem := rfl
@[simp] theorem fetchStage_memwb (slot : Slot) (s : State) : (fetchStage slot s).memwb = s.memwb := rfl
@[simp] theorem fetchStage_wbend (slot : Slot) (s : State) : (fetchStage slot s).wbend = s.wbend := rfl
@[simp] theorem fetchStage_cycles (slot : Slot) (s : State) : (fetchStage slot s).cycles = s.cycles := rfl
@[simp] theorem fetchStage_fetched (slot : Slot) (s : State) : (fetchStage slot s).fetched = s.fetched + 1 := rfl
@[simp] theorem fetchStage_retired (slot : Slot) (s : State) : (fetchStage slot s).retired = s.retired := rfl
@[simp] theorem fetchStage_notTaken (slot : Slot) (s : State) : (fetchStage slot s).notTaken = s.notTaken := rfl
@[simp] theorem fetchStage_mispred (slot : Slot) (s : State) : (fetchStage slot s).mispred = s.mispred := rfl
@[simp] theorem fetchStage_run (slot : Slot) (s : State) : (fetchStage slot s).run = s.run := rfl
@[simp] theorem fetchStage_fault (slot : Slot) (s : State) : (fetchStage slot s).fault = s.fault := rfl
@[simp] theorem fetchStage_rst (slot : Slot) (s : State) : (fetchStage slot s).rst = s.rst := rfl
@[simp] theorem fetchStage_params (slot : Slot) (s : State) : (fetchStage slot s).params = s.params := rfl
@[simp] theorem fetchStage_stage (slot : Slot) (s : State) : (fetchStage slot s).stage = s.stage := rfl

/-! ### stallAction -/

@[simp] theorem stallAction_regs (s : State) : (stallAction s).regs = s.regs := rfl
@[simp] theorem stallAction_pc (s : State) : (stallAction s).pc = s.pc := rfl
@[simp] theorem stallAction_imem (s : State) : (stallAction s).imem = s.imem := rfl
@[simp] theorem stallAction_dmem (s : State) : (stallAction s).dmem = s.dmem := rfl
@[simp] theorem stallAction_ifid (s : State) : (stallAction s).ifid = s.ifid := rfl
@[simp] theorem stallAction_idex (s : State) : (stallAction s).idex = s.idex := rfl
@[simp] theorem stallAction_exmem (s : State) : (stallAction s).exmem = .bubble := rfl
@[simp] theorem stallAction_memwb (s : State) : (stallAction s).memwb = s.memwb := rfl
@[simp] theorem stallAction_wbend (s : State) : (stallAction s).wbend = s.wbend := rfl
@[simp] theorem stallAction_cycles (s : State) : (stallAction s).cycles = s.cycles := rfl
@[simp] theorem stallAction_fetched (s : State) : (stallAction s).fetched = s.fetched := rfl
@[simp] theorem stallAction_retired (s : State) : (stallAction s).retired = s.retired - 1 := rfl
@[simp] theorem stallAction_notTaken (s : State) : (stallAction s).notTaken = s.notTaken := rfl
@[simp] theorem stallAction_mispred (s : State) : (stallAction s).mispred = s.mispred := rfl
@[simp] theorem stallAction_run (s : State) : (stallAction s).run = s.run := rfl
@[simp] theorem stallAction_fault (s : State) : (stallAction s).fault = s.fault := rfl
@[simp] theorem stallAction_rst (s : State) : (stallAction s).rst = s.rst := rfl
@[simp] theorem stallAction_params (s : State) : (stallAction s).params = s.params := rfl
@[simp] theorem stallAction_stage (s : State) : (stallAction s).stage = s.stage := rfl

/-! ### toMemwb -/

@[simp] theorem toMemwb_regs (slot : Slot) (v : Word) (s : State) : (toMemwb slot v s).regs = s.regs := rfl
@[simp] theorem toMemwb_pc (slot : Slot) (v : Word) (s : State) : (toMemwb slot v s).pc = s.pc := rfl
@[simp] theorem toMemwb_imem (slot : Slot) (v : Word) (s : State) : (toMemwb slot v s).imem = s.imem := rfl
@[simp] theorem toMemwb_dmem (slot : Slot) (v : Word) (s : State) : (toMemwb slot v s).dmem = s.dmem := rfl
@[simp] theorem toMemwb_ifid (slot : Slot) (v : Word) (s : State) : (toMemwb slot v s).ifid = s.ifid := rfl
@[simp] theorem toMemwb_idex (slot : Slot) (v : Word) (s : State) : (toMemwb slot v s).idex = s.idex := rfl
@[simp] theorem toMemwb_exmem (slot : Slot) (v : Word) (s : State) : (toMemwb slot v s).exmem = s.exmem := rfl
@[simp] theorem toMemwb_memwb (slot : Slot) (v : Word) (s : State) : (toMemwb slot v s).memwb = { instr := slot, writeData := v } := rfl
@[simp] theorem toMemwb_wbend (slot : Slot) (v : Word) (s : State) : (toMemwb slot v s).wbend = s.wbend := rfl
@[simp] theorem toMemwb_cycles (slot : Slot) (v : Word) (s : State) : (toMemwb slot v s).cycles = s.cycles := rfl
@[simp] theorem toMemwb_fetched (slot : Slot) (v : Word) (s : State) : (toMemwb slot v s).fetched = s.fetched := rfl
@[simp] theorem toMemwb_retired (slot : Slot) (v : Word) (s : State) : (toMemwb slot v s).retired = s.retired := rfl
@[simp] theorem toMemwb_notTaken (slot : Slot) (v : Word) (s : State) : (toMemwb slot v s).notTaken = s.notTaken := rfl
@[simp] theorem toMemwb_mispred (slot : Slot) (v : Word) (s : State) : (toMemwb slot v s).mispred = s.mispred := rfl
@[simp] theorem toMemwb_run (slot : Slot) (v : Word) (s : State) : (toMemwb slot v s).run = s.run := rfl
@[simp] theorem toMemwb_fault (slot : Slot) (v : Word) (s : State) : (toMemwb slot v s).fault = s.fault := rfl
@[simp] theorem toMemwb_rst (slot : Slot) (v : Word) (s : State) : (toMemwb slot v s).rst = s.rst := rfl
@[simp] theorem toMemwb_params (slot : Slot) (v : Word) (s : State) : (toMemwb slot v s).params = s.params := rfl
@[simp] theorem toMemwb_stage (slot : Slot) (v : Word) (s : State) : (toMemwb slot v s).stage = s.stage := rfl

/-! ### flush -/

@[simp] theorem flush_regs (s : State) : (flush s).regs = s.regs := rfl
@[simp] theorem flush_pc (s : State) : (flush s).pc = s.exmem.branchTarget := rfl
@[simp] theorem flush_imem (s : State) : (flush s).imem = s.imem := rfl
@[simp] theorem flush_dmem (s : State) : (flush s).dmem = s.dmem := rfl
@[simp] theorem flush_ifid (s : State) : (flush s).ifid = .bubble := rfl
@[simp] theorem flush_idex (s : State) : (flush s).idex = .bubble := rfl
@[simp] theorem flush_exmem (s : State) : (flush s).exmem = .bubble := rfl
@[simp] theorem flush_memwb (s : State) : (flush s).memwb = s.memwb := rfl
@[simp] theorem flush_wbend (s : State) : (flush s).wbend = s.wbend := rfl
@[simp] theorem flush_cycles (s : State) : (flush s).cycles = s.cycles := rfl
@[simp] theorem flush_fetched (s : State) : (flush s).fetched = s.fetched := rfl
@[simp] theorem flush_retired (s : State) : (flush s).retired = s.retired - 3 := rfl
@[simp] theorem flush_notTaken (s : State) : (flush s).notTaken = s.notTaken := rfl
@[simp] theorem flush_mispred (s : State) : (flush s).mispred = s.mispred + 1 := rfl
@[simp] theorem flush_run (s : State) : (flush s).run = s.run := rfl
@[simp] theorem flush_fault (s : State) : (flush s).fault = s.fault := rfl
@[simp] theorem flush_rst (s : State) : (flush s).rst = s.rst := rfl
@[simp] theorem flush_params (s : State) : (flush s).params = s.params := rfl
@[simp] theorem flush_stage (s : State) : (flush s).stage = s.stage := rfl

/-! ### decodeStage -/

@[simp] theorem decodeStage_regs (slot : Slot) (s : State) : (decodeStage slot s).regs = s.regs := rfl
@[simp] theorem decodeStage_pc (slot : Slot) (s : State) : (decodeStage slot s).pc = s.pc := rfl
@[simp] theorem decodeStage_imem (slot : Slot) (s : State) : (decodeStage slot s).imem = s.imem := rfl
@[simp] theorem decodeStage_dmem (slot : Slot) (s : State) : (decodeStage slot s).dmem = s.dmem := rfl
@[simp] theorem decodeStage_ifid (slot : Slot) (s : State) : (decodeStage slot s).ifid = s.ifid := rfl
@[simp] theorem decodeStage_exmem (slot : Slot) (s : State) : (decodeStage slot s).exmem = s.exmem := rfl
@[simp] theorem decodeStage_memwb (slot : Slot) (s : State) : (decodeStage slot s).memwb = s.memwb := rfl
@[simp] theorem decodeStage_wbend (slot : Slot) (s : State) : (decodeStage slot s).wbend = s.wbend := rfl
@[simp] theorem decodeStage_cycles (slot : Slot) (s : State) : (decodeStage slot s).cycles = s.cycles := rfl
@[simp] theorem decodeStage_fetched (slot : Slot) (s : State) : (decodeStage slot s).fetched = s.fetched := rfl
@[simp] theorem decodeStage_retired (slot : Slot) (s : State) : (decodeStage slot s).retired = s.retired := rfl
@[simp] theorem decodeStage_notTaken (slot : Slot) (s : State) : (decodeStage slot s).notTaken = s.notTaken := rfl
@[simp] theorem decodeStage_mispred (slot : Slot) (s : State) : (decodeStage slot s).mispred = s.mispred := rfl
@[simp] theorem decodeStage_run (slot : Slot) (s : State) : (decodeStage slot s).run = s.run := rfl
@[simp] theorem decodeStage_fault (slot : Slot) (s : State) : (decodeStage slot s).fault = s.fault := rfl
@[simp] theorem decodeStage_rst (slot : Slot) (s : State) : (decodeStage slot s).rst = s.rst := rfl
@[simp] theorem decodeStage_params (slot : Slot) (s : State) : (decodeStage slot s).params = s.params := rfl
@[simp] theorem decodeStage_stage (slot : Slot) (s : State) : (decodeStage slot s).stage = s.stage := rfl

/-! ### writebackStage -/

@[simp] theorem writebackStage_regs (slot : Slot) (dest : Option RegIdx) (s : State) : (writebackStage slot dest s).regs = s.regs.writeDest dest s.memwb.writeData := rfl
@[simp] theorem writebackStage_pc (slot : Slot) (dest : Option RegIdx) (s : State) : (writebackStage slot dest s).pc = s.pc := rfl
@[simp] theorem writebackStage_imem (slot : Slot) (dest : Option RegIdx) (s : State) : (writebackStage slot dest s).imem = s.imem := rfl
@[simp] theorem writebackStage_dmem (slot : Slot) (dest : Option RegIdx) (s : State) : (writebackStage slot dest s).dmem = s.dmem := rfl
@[simp] theorem writebackStage_ifid (slot : Slot) (dest : Option RegIdx) (s : State) : (writebackStage slot dest s).ifid = s.ifid := rfl
@[simp] theorem writebackStage_idex (slot : Slot) (dest : Option RegIdx) (s : State) : (writebackStage slot dest s).idex = s.idex := rfl
@[simp] theorem writebackStage_exmem (slot : Slot) (dest : Option RegIdx) (s : State) : (writebackStage slot dest s).exmem = s.exmem := rfl
@[simp] theorem writebackStage_memwb (slot : Slot) (dest : Option RegIdx) (s : State) : (writebackStage slot dest s).memwb = s.memwb := rfl
@[simp] theorem writebackStage_wbend (slot : Slot) (dest : Option RegIdx) (s : State) : (writebackStage slot dest s).wbend = { instr := slot, writeData := s.memwb.writeData } := rfl
@[simp] theorem writebackStage_cycles (slot : Slot) (dest : Option RegIdx) (s : State) : (writebackStage slot dest s).cycles = s.cycles := rfl
@[simp] theorem writebackStage_fetched (slot : Slot) (dest : Option RegIdx) (s : State) : (writebackStage slot dest s).fetched = s.fetched := rfl
@[simp] theorem writebackStage_retired (slot : Slot) (dest : Option RegIdx) (s : State) : (writebackStage slot dest s).retired = s.retired + 1 := rfl
@[simp] theorem writebackStage_notTaken (slot : Slot) (dest : Option RegIdx) (s : State) : (writebackStage slot dest s).notTaken = s.notTaken := rfl
@[simp] theorem writebackStage_mispred (slot : Slot) (dest : Option RegIdx) (s : State) : (writebackStage slot dest s).mispred = s.mispred := rfl
@[simp] theorem writebackStage_run (slot : Slot) (dest : Option RegIdx) (s : State) : (writebackStage slot dest s).run = s.run := rfl
@[simp] theorem writebackStage_fault (slot : Slot) (dest : Option RegIdx) (s : State) : (writebackStage slot dest s).fault = s.fault := rfl
@[simp] theorem writebackStage_rst (slot : Slot) (dest : Option RegIdx) (s : State) : (writebackStage slot dest s).rst = s.rst := rfl
@[simp] theorem writebackStage_params (slot : Slot) (dest : Option RegIdx) (s : State) : (writebackStage slot dest s).params = s.params := rfl
@[simp] theorem writebackStage_stage (slot : Slot) (dest : Option RegIdx) (s : State) : (writebackStage slot dest s).stage = s.stage := rfl

end Sys2Proof.Machine
end

