-- ==== Sys2Proof/Laws/Stages.lean ====
section
/-! SUPPORT. What each turn of a slot can do, said once per shared operation, and what `runSlot` runs for a slot: the
word of a latch alone decides, whatever constructor it decodes to. -/

namespace Sys2Proof.Machine

@[simp] theorem andThen_next (s : State) (k : State → Result) : andThen (.next s) k = k s := rfl

/-- A "data" row's opcode is not one that a stage acts on. -/
theorem ne_of_topBitIs {op : OpField} {k : Nat} (hk : 3 ≤ k) (h : topBitIs op k = true) :
    op ≠ 2#10 ∧ op ≠ 3#10 ∧ op ≠ 4#10 ∧ op ≠ 6#10 := by
  have := ge8_of_topBitIs hk h
  refine ⟨?_, ?_, ?_, ?_⟩ <;> (rintro rfl; simp at this)

/-- `andThen` goes on only from a next state. -/
theorem andThen_eq_next {r : Result} {k : State → Result} {t : State} (h : andThen r k = .next t) :
    ∃ s, r = .next s ∧ k s = .next t := by
  cases r with
  | next s => exact ⟨s, rfl, h⟩
  | fault f => exact nomatch f
  | refused f => simp [andThen] at h

/-! ### Opcodes of a slot -/

theorem isOpcode_iff (w : Word) (k : OpField) : isOpcode w k = true ↔ opOf w = k := by simp [isOpcode]

theorem isOpcode_eq (w : Word) (k : OpField) : isOpcode w k = ((decode w).opcode == k) := by simp [isOpcode]

@[simp] theorem bubble_dest : Slot.bubble.dest = none := by decide
@[simp] theorem bubble_srcs_used (p : Config.Params) (h : p.stallSources = .used) : Slot.bubble.srcs p = [] := by
  simp only [Slot.bubble, Slot.srcs, srcsOf, h]
  decide
@[simp] theorem bubble_isLw : Slot.bubble.isLw = false := by decide
@[simp] theorem bubble_isSw : Slot.bubble.isSw = false := by decide
@[simp] theorem bubble_isBeq : Slot.bubble.isBeq = false := by decide
@[simp] theorem bubble_isHalt : Slot.bubble.isHalt = false := by decide
@[simp] theorem exmem_bubble_instr : EXMEM.bubble.instr = .bubble := rfl
@[simp] theorem idex_bubble_instr : IDEX.bubble.instr = .bubble := rfl
@[simp] theorem ifid_bubble_instr : IFID.bubble.instr = .bubble := rfl
@[simp] theorem memwb_bubble_instr : MEMWB.bubble.instr = .bubble := rfl
@[simp] theorem wbend_bubble_instr : WBEND.bubble.instr = .bubble := rfl

/-- A slot with an LW has a destination, its `fA`. -/
theorem dest_of_isLw {slot : Slot} (h : slot.isLw = true) : slot.dest = slot.fieldA := by
  cases slot with
  | ff a => cases h
  | word w =>
    have h := (isOpcode_iff w 2#10).1 h
    simp [Slot.dest, Slot.fieldA, decode_of_op2 h, destOf]

theorem dest_of_isSw {slot : Slot} (h : slot.isSw = true) : slot.dest = none := by
  cases slot with
  | ff a => cases h
  | word w =>
    have h := (isOpcode_iff w 3#10).1 h
    simp [Slot.dest, decode_of_op3 h, destOf]

theorem dest_of_isBeq {slot : Slot} (h : slot.isBeq = true) : slot.dest = none := by
  cases slot with
  | ff a => cases h
  | word w =>
    have h := (isOpcode_iff w 4#10).1 h
    simp [Slot.dest, decode_of_op4 h, destOf]

theorem loads_iff (slot : Slot) (r : RegIdx) :
    slot.loads r = true ↔ slot.isLw = true ∧ slot.fieldA = some r := by simp [Slot.loads]

/-! ### The ALU and the memory stage of a slot -/

/-- The ALU function of an opcode (40_pipeline.md R140), as the meanings give it to `executeStage`. -/
def aluOf : Instr → Word → Word → Word → Word
  | .add _ _ _ => fun a b _ => a + b
  | .nand _ _ _ => fun a b _ => ~~~(a &&& b)
  | .lw _ _ _ => aluAddress
  | .sw _ _ _ => aluAddress
  | .beq _ _ _ => fun a b _ => a - b
  | .jalr _ _ _ => aluNone
  | .halt _ _ _ => aluNone
  | .noop _ _ _ => aluNone
  | .data31 _ _ _ _ => aluNone
  | .data30 _ _ _ _ => aluNone
  | .data29 _ _ _ _ => aluNone
  | .data28 _ _ _ _ => aluNone
  | .data27 _ _ _ _ => aluNone
  | .data26 _ _ _ _ => aluNone
  | .data25 _ _ _ _ => aluNone

/-- The ALU function of a slot. -/
def Slot.alu : Slot → Word → Word → Word → Word
  | .word w => aluOf (decode w)
  | .ff _ => aluNone

/-- MEMORY of a slot (R145 to R148). -/
def memorySlot (slot : Slot) (s : State) : State :=
  match slot with
  | .word w =>
    if isOpcode w 2#10 then memoryLoad w s
    else if isOpcode w 3#10 then memoryStore w s
    else if isOpcode w 4#10 then memoryBranch (.word w) s
    else memoryPass (.word w) s
  | .ff a => memoryPass (.ff a) s

/-! ### What each shared operation can do -/

/-- EXECUTE does one of two things (R140, R141). -/
theorem executeStage_cases (slot : Slot) (alu : Word → Word → Word → Word) (s : State) :
    (s.stallFor slot = true ∧ executeStage slot alu s = { s with exmem := .bubble, retired := s.retired - 1 }) ∨
    (s.stallFor slot = false ∧
      executeStage slot alu s =
        { s with
          exmem :=
            { instr := slot
              branchTarget := s.idex.pcPlus1 + s.idex.offset
              aluResult := alu (s.operandA slot) (s.operandB slot) s.idex.offset
              storeData := s.operandA slot } }) := by
  cases h : s.stallFor slot with
  | true => exact .inl ⟨rfl, by simp [executeStage, h, stallAction]⟩
  | false => exact .inr ⟨rfl, by simp [executeStage, h]⟩

/-- MEMORY of an LW loads or faults (R145, R146). -/
theorem memoryLoad_cases (w : Word) (s : State) :
    (inRange s.exmem.aluResult = true ∧
      memoryLoad w s = { s with memwb := { instr := .word w, writeData := s.dmemRead s.exmem.aluResult } }) ∨
    (inRange s.exmem.aluResult = false ∧ memoryLoad w s = s.raiseFatal (.memBounds s.exmem.aluResult w)) := by
  cases h : inRange s.exmem.aluResult with
  | true => exact .inl ⟨rfl, by simp [memoryLoad, h, toMemwb]⟩
  | false => exact .inr ⟨rfl, by simp [memoryLoad, h]⟩

/-- MEMORY of an SW stores or faults (R145, R146). -/
theorem memoryStore_cases (w : Word) (s : State) :
    (inRange s.exmem.aluResult = true ∧
      memoryStore w s =
        { s with
          dmem := Memory.write s.dmem s.exmem.aluResult.toNat s.exmem.storeData
          memwb := { instr := .word w, writeData := s.exmem.aluResult } }) ∨
    (inRange s.exmem.aluResult = false ∧ memoryStore w s = s.raiseFatal (.memBounds s.exmem.aluResult w)) := by
  cases h : inRange s.exmem.aluResult with
  | true => exact .inl ⟨rfl, by simp [memoryStore, h, toMemwb, State.dmemWrite]⟩
  | false => exact .inr ⟨rfl, by simp [memoryStore, h]⟩

/-- MEMORY of a BEQ flushes or counts (R147, R148). -/
theorem memoryBranch_cases (slot : Slot) (s : State) :
    (s.exmem.aluResult = 0 ∧ memoryBranch slot s = flush (memoryPass slot s)) ∨
    (s.exmem.aluResult ≠ 0 ∧ memoryBranch slot s = { memoryPass slot s with notTaken := s.notTaken + 1 }) := by
  by_cases h : s.exmem.aluResult = 0
  · exact .inl ⟨h, by simp [memoryBranch, zeroTest, h]⟩
  · exact .inr ⟨h, by simp only [memoryBranch, zeroTest, beq_eq_false_iff_ne.2 h]; rfl⟩

/-- A forwarded operand is one of the three latch values, or the decode-stage read (R143, R144). -/
theorem fwd_cases (s : State) (r : RegIdx) (raw : Word) :
    (s.exmem.instr.dest = some r ∧ s.fwd r raw = s.exmem.aluResult) ∨
    (s.memwb.instr.dest = some r ∧ s.fwd r raw = s.memwb.writeData) ∨
    (s.wbend.instr.dest = some r ∧ s.fwd r raw = s.wbend.writeData) ∨
    (s.exmem.instr.dest ≠ some r ∧ s.memwb.instr.dest ≠ some r ∧ s.wbend.instr.dest ≠ some r ∧ s.fwd r raw = raw) := by
  have loads : ∀ slot : Slot, slot.loads r = true → slot.dest = some r := by
    intro slot h
    simp only [Slot.loads, Bool.and_eq_true, decide_eq_true_eq] at h
    exact (dest_of_isLw h.1).trans h.2
  have mem := loads s.memwb.instr
  have wb := loads s.wbend.instr
  simp only [State.fwd, State.fwdOverride, State.fwdYoungest]
  split_ifs <;> simp_all

/-- The host's load happens under reset with an image that fits, and puts it into both memories (60_exceptions.md R310). -/
theorem loadImage_cases (s : State) (img : List Word) :
    (s.rst = true ∧ img.length ≤ Config.memSize ∧
      s.loadImage img = some { s with imem := Memory.ofImage img, dmem := Memory.ofImage img }) ∨
    ((s.rst = false ∨ Config.memSize < img.length) ∧ s.loadImage img = none) := by
  by_cases h : s.rst = true ∧ img.length ≤ Config.memSize
  · exact .inl ⟨h.1, h.2, by simp [State.loadImage, h.1, h.2]⟩
  · refine .inr ⟨?_, by simpa [State.loadImage] using h⟩
    cases hr : s.rst with
    | false => exact .inl rfl
    | true => exact .inr (by simpa [hr] using h)

/-! ### What `exec` does in each turn -/

section
variable {w : Word} {s : State}

theorem exec_decode_cases (w : Word) : ∃ i, decode w = i ∧ encode i = w ∧ i.opcode = opOf w ∧ i.wf = true :=
  ⟨_, rfl, decode_spec w⟩

theorem exec_clock (h : s.stage = .clock) :
    exec (decode w) s = .next (if isOpcode w 6#10 then haltClock s else s) := by
  rw [isOpcode_eq]
  obtain ⟨i, hi, he, ho, hw⟩ := exec_decode_cases w
  rw [hi]
  cases i <;> simp only [Instr.wf] at hw <;>
    simp [exec, execAdd, execNand, execLw, execSw, execBeq, execJalr, execHalt, execNoop, execData31, execData30, execData29,
      execData28, execData27, execData26, execData25, noEffect, h, Instr.opcode] <;>
    (intro hc; exact absurd hc (ne_of_topBitIs (by omega) hw).2.2.2)

theorem exec_fetch (h : s.stage = .fetch) : exec (decode w) s = .next (fetchStage (.word w) s) := by
  obtain ⟨i, hi, he, ho, hw⟩ := exec_decode_cases w
  rw [hi, ← he]
  cases i <;> simp [exec, execAdd, execNand, execLw, execSw, execBeq, execJalr, execHalt, execNoop, execData31, execData30,
    execData29, execData28, execData27, execData26, execData25, noEffect, h, slotOf]

theorem exec_decode (h : s.stage = .decode) : exec (decode w) s = .next (decodeStage (.word w) s) := by
  obtain ⟨i, hi, he, ho, hw⟩ := exec_decode_cases w
  rw [hi, ← he]
  cases i <;> simp [exec, execAdd, execNand, execLw, execSw, execBeq, execJalr, execHalt, execNoop, execData31, execData30,
    execData29, execData28, execData27, execData26, execData25, noEffect, h, slotOf]

theorem exec_execute (h : s.stage = .execute) :
    exec (decode w) s = .next (executeStage (.word w) (Slot.word w).alu s) := by
  obtain ⟨i, hi, he, ho, hw⟩ := exec_decode_cases w
  rw [Slot.alu, hi, ← he]
  cases i <;> simp [exec, execAdd, execNand, execLw, execSw, execBeq, execJalr, execHalt, execNoop, execData31, execData30,
    execData29, execData28, execData27, execData26, execData25, noEffect, h, slotOf, aluOf]

theorem exec_memory (h : s.stage = .memory) : exec (decode w) s = .next (memorySlot (.word w) s) := by
  simp only [memorySlot, isOpcode_eq]
  obtain ⟨i, hi, he, ho, hw⟩ := exec_decode_cases w
  rw [hi, ← he]
  cases i <;> simp only [Instr.wf] at hw <;>
    simp [exec, execAdd, execNand, execLw, execSw, execBeq, execJalr, execHalt, execNoop, execData31, execData30, execData29,
      execData28, execData27, execData26, execData25, noEffect, h, Instr.opcode, slotOf]
  all_goals
    have ne := ne_of_topBitIs (by omega) hw
    rw [if_neg ne.1, if_neg ne.2.1, if_neg ne.2.2.1]

theorem exec_writeback (h : s.stage = .writeback) :
    exec (decode w) s = .next (writebackStage (.word w) (Slot.word w).dest s) := by
  obtain ⟨i, hi, he, ho, hw⟩ := exec_decode_cases w
  rw [Slot.dest, hi, ← he]
  cases i <;> simp [exec, execAdd, execNand, execLw, execSw, execBeq, execJalr, execHalt, execNoop, execData31, execData30,
    execData29, execData28, execData27, execData26, execData25, noEffect, h, slotOf, destOf]

end

end Sys2Proof.Machine
end

