-- ==== Sys2Proof/Laws/Step.lean ====
section
/-! SUPPORT. What one clock edge can do, said once: the six ways an edge ends, and the next state of a committed cycle
field by field. Later proofs cite these and do not unfold the step. -/

namespace Sys2Proof.Machine

/-! ### The turns of a slot -/

@[simp] theorem runSlot_fetch (slot : Slot) (s : State) : runSlot .fetch slot s = .next (fetchStage slot s) := by
  cases slot with
  | word w => simp only [runSlot, exec_fetch (s := { s with stage := .fetch }) rfl, andThen_next]; rfl
  | ff a => rfl

@[simp] theorem runSlot_decode (slot : Slot) (s : State) : runSlot .decode slot s = .next (decodeStage slot s) := by
  cases slot with
  | word w => simp only [runSlot, exec_decode (s := { s with stage := .decode }) rfl, andThen_next]; rfl
  | ff a => rfl

/-- EXECUTE reads nothing of `stage`. -/
theorem executeStage_stage (slot : Slot) (alu : Word → Word → Word → Word) (s : State) (x : Stage) :
    executeStage slot alu { s with stage := x } = { executeStage slot alu s with stage := x } := by
  simp only [executeStage, show ({ s with stage := x } : State).stallFor slot = s.stallFor slot from rfl]
  split <;> rfl

@[simp] theorem runSlot_execute (slot : Slot) (s : State) :
    runSlot .execute slot s = .next (executeStage slot slot.alu s) := by
  cases slot with
  | word w =>
    simp only [runSlot, exec_execute (s := { s with stage := .execute }) rfl, andThen_next, executeStage_stage]
    simp only [executeStage]
    split <;> rfl
  | ff a =>
    simp only [runSlot, ffTurn, noEffect, executeStage_stage, Slot.alu]
    simp only [executeStage]
    split <;> rfl

/-- MEMORY reads nothing of `stage`. -/
theorem memorySlot_stage (slot : Slot) (s : State) (x : Stage) :
    memorySlot slot { s with stage := x } = { memorySlot slot s with stage := x } := by
  cases slot with
  | ff a => rfl
  | word w =>
    simp only [memorySlot]
    split
    · simp only [memoryLoad]; split <;> rfl
    split
    · simp only [memoryStore]; split <;> rfl
    split
    · simp only [memoryBranch]; split <;> rfl
    · rfl

@[simp] theorem memorySlot_stage_eq (slot : Slot) (s : State) : (memorySlot slot s).stage = s.stage := by
  rw [show memorySlot slot s = memorySlot slot { s with stage := s.stage } from rfl, memorySlot_stage]

@[simp] theorem runSlot_memory (slot : Slot) (s : State) : runSlot .memory slot s = .next (memorySlot slot s) := by
  have e : ({ memorySlot slot s with stage := s.stage } : State) = memorySlot slot s := by
    rw [← memorySlot_stage]
  cases slot with
  | word w =>
    simp only [runSlot, exec_memory (s := { s with stage := .memory }) rfl, andThen_next, memorySlot_stage]
    rw [e]
  | ff a => rfl

@[simp] theorem runSlot_writeback (slot : Slot) (s : State) :
    runSlot .writeback slot s = .next (writebackStage slot slot.dest s) := by
  cases slot with
  | word w => simp only [runSlot, exec_writeback (s := { s with stage := .writeback }) rfl, andThen_next]; rfl
  | ff a => rfl

/-- The clock's check of MEM/WB (40_pipeline.md R132, R133). -/
theorem runSlot_clock (slot : Slot) (s : State) :
    runSlot .clock slot s = .next (match slot with
      | .word w => if isOpcode w 6#10 then haltClock s else s
      | .ff a => s.raiseFatal (.fetchOutOfRange a)) := by
  cases slot with
  | word w =>
    simp only [runSlot, exec_clock (s := { s with stage := .clock }) rfl, andThen_next]
    split <;> rfl
  | ff a => rfl

/-! ### The memory stage -/

/-- The word MEMORY leaves in MEM/WB (R145): the loaded word of an LW, else the ALU result. -/
def State.memValue (s : State) : Word :=
  if s.exmem.instr.isLw then s.dmemRead s.exmem.aluResult else s.exmem.aluResult

/-- Data memory after MEMORY (R145): an SW writes its word. -/
def State.memAfter (s : State) : Memory :=
  if s.exmem.instr.isSw then Memory.write s.dmem s.exmem.aluResult.toNat s.exmem.storeData else s.dmem

/-- MEMORY of the slot in EX/MEM raises `MemBounds` exactly where its access is out of range (R146). -/
theorem memorySlot_faults {s : State} (h : s.memFaults = true) :
    ∃ w, s.exmem.instr = .word w ∧ (isOpcode w 2#10 = true ∨ isOpcode w 3#10 = true) ∧
      memorySlot s.exmem.instr s = s.raiseFatal (.memBounds s.exmem.aluResult w) := by
  simp only [State.memFaults, State.accesses, Bool.and_eq_true, Bool.or_eq_true, Bool.not_eq_true'] at h
  obtain ⟨hacc, hr⟩ := h
  cases hs : s.exmem.instr with
  | ff a => simp [hs, Slot.isLw, Slot.isSw] at hacc
  | word w =>
    simp only [hs, Slot.isLw, Slot.isSw] at hacc
    refine ⟨w, rfl, hacc, ?_⟩
    simp only [memorySlot]
    by_cases h2 : isOpcode w 2#10 = true
    · simp [h2, memoryLoad, hr]
    · have h3 : isOpcode w 3#10 = true := hacc.resolve_left h2
      simp [h2, h3, memoryStore, hr]

/-- MEMORY of the slot in EX/MEM where it raises nothing (R145, R147, R148). -/
theorem memorySlot_ok {s : State} (h : s.memFaults = false) :
    memorySlot s.exmem.instr s =
      let passed := { s with dmem := s.memAfter, memwb := { instr := s.exmem.instr, writeData := s.memValue } }
      if s.taken then flush passed
      else if s.exmem.instr.isBeq then { passed with notTaken := s.notTaken + 1 } else passed := by
  simp only [State.memFaults, State.accesses, Bool.and_eq_false_iff, Bool.not_eq_false'] at h
  simp only [State.memAfter, State.memValue, State.taken]
  obtain ⟨slot, hs⟩ : ∃ slot, s.exmem.instr = slot := ⟨_, rfl⟩
  simp only [hs] at h ⊢
  cases slot with
  | ff a => simp [memorySlot, memoryPass, toMemwb, Slot.isLw, Slot.isSw, Slot.isBeq]
  | word w =>
    simp only [Slot.isLw, Slot.isSw, Bool.or_eq_false_iff] at h
    simp only [memorySlot, Slot.isLw, Slot.isSw, Slot.isBeq]
    by_cases h2 : opOf w = 2#10
    · simp only [isOpcode, h2] at h ⊢
      have hr : inRange s.exmem.aluResult = true := by simpa using h
      simp [memoryLoad, hr, toMemwb]
    by_cases h3 : opOf w = 3#10
    · simp only [isOpcode, h3] at h ⊢
      have hr : inRange s.exmem.aluResult = true := by simpa using h
      simp [memoryStore, hr, toMemwb, State.dmemWrite]
    by_cases h4 : opOf w = 4#10
    · simp only [isOpcode, h4, memoryBranch, memoryPass, toMemwb]
      simp
    · simp [isOpcode, h2, h3, h4, memoryPass, toMemwb]

/-! ### The cycle -/

/-- The next state `N` of a cycle that commits, field by field (40_pipeline.md R130 to R152). -/
def State.afterCycle (s : State) : State :=
  { s with
    regs := s.regs.writeDest s.memwb.instr.dest s.memwb.writeData
    pc := if s.taken then s.exmem.branchTarget else if s.stall then s.pc else s.pc + 1
    dmem := s.memAfter
    ifid := if s.taken then .bubble else if s.stall then s.ifid else { instr := s.fetchSlot, pcPlus1 := s.pc + 1 }
    idex := if s.taken then .bubble else if s.stall then s.idex else (decodeStage s.ifid.instr s).idex
    exmem := if s.taken then .bubble else (executeStage s.idex.instr s.idex.instr.alu s).exmem
    memwb := { instr := s.exmem.instr, writeData := s.memValue }
    wbend := { instr := s.memwb.instr, writeData := s.memwb.writeData }
    cycles := s.cycles + 1
    fetched := if s.stall && !s.params.fetchCountOnStall then s.fetched else s.fetched + 1
    retired := s.retired + 1 - (if s.stall then 1 else 0) - (if s.taken then 3 else 0)
    notTaken := if s.exmem.instr.isBeq && !s.taken then s.notTaken + 1 else s.notTaken
    mispred := if s.taken then s.mispred + 1 else s.mispred }

/-- A stall needs an LW in EX/MEM and a taken branch a BEQ (R153). -/
theorem not_taken_of_stall {s : State} (h : s.stall = true) : s.taken = false := by
  simp only [State.stall, State.stallFor, Bool.and_eq_true] at h
  have h := h.1
  cases hs : s.exmem.instr with
  | ff a => simp [hs, Slot.isLw] at h
  | word w =>
    have h2 : opOf w = 2#10 := (isOpcode_iff w 2#10).1 (by simpa [hs, Slot.isLw] using h)
    simp [State.taken, hs, Slot.isBeq, isOpcode, h2]

theorem executeStage_exmem_stall {s : State} (alu : Word → Word → Word → Word) (h : s.stall = true) :
    executeStage s.idex.instr alu s = stallAction s := by
  simp only [State.stall] at h
  simp [executeStage, h]

theorem executeStage_retired (s : State) :
    (executeStage s.idex.instr s.idex.instr.alu s).retired = s.retired - (if s.stall then 1 else 0) := by
  simp only [executeStage, State.stall]
  split <;> simp_all

@[simp] theorem executeStage_pc (slot : Slot) (alu) (s : State) : (executeStage slot alu s).pc = s.pc := by
  unfold executeStage; split <;> rfl
@[simp] theorem executeStage_ifid (slot : Slot) (alu) (s : State) : (executeStage slot alu s).ifid = s.ifid := by
  unfold executeStage; split <;> rfl
@[simp] theorem executeStage_idex (slot : Slot) (alu) (s : State) : (executeStage slot alu s).idex = s.idex := by
  unfold executeStage; split <;> rfl
@[simp] theorem executeStage_fetched (slot : Slot) (alu) (s : State) : (executeStage slot alu s).fetched = s.fetched := by
  unfold executeStage; split <;> rfl

/-- The five stages of a cycle with no fault make `afterCycle`. -/
theorem runStages_ok {s : State} (run : s.run = .running) (h : s.memFaults = false) :
    runStages s = .next s.afterCycle := by
  simp only [runStages, runSlot_fetch, runSlot_decode, runSlot_execute, runSlot_memory, runSlot_writeback, andThen_next,
    memorySlot_ok h]
  congr 1
  by_cases ht : s.taken = true
  · have hs : s.stall = false := by
      cases e : s.stall with
      | false => rfl
      | true => simp [not_taken_of_stall e] at ht
    have hb : s.exmem.instr.isBeq = true := by
      simp only [State.taken, Bool.and_eq_true] at ht
      exact ht.1
    simp only [commit, State.afterCycle, ht, hs, run, if_true, executeStage_retired, flush_run]
    simp
    bv_omega
  · have ht : s.taken = false := by simpa using ht
    by_cases hb : s.exmem.instr.isBeq = true
    · simp only [commit, State.afterCycle, ht, hb, run, executeStage_retired]
      simp
      by_cases hs : s.stall = true <;> simp [hs]
      bv_omega
    · have hb : s.exmem.instr.isBeq = false := by simpa using hb
      simp only [commit, State.afterCycle, ht, hb, run, executeStage_retired]
      simp
      by_cases hs : s.stall = true <;> simp [hs]
      bv_omega

/-- A cycle whose memory stage faults commits nothing but the fault (60_exceptions.md R302). -/
theorem runStages_fault {s : State} (h : s.memFaults = true) :
    ∃ w, s.exmem.instr = .word w ∧ (isOpcode w 2#10 = true ∨ isOpcode w 3#10 = true) ∧
      runStages s = .next (s.raiseFatal (.memBounds s.exmem.aluResult w)) := by
  obtain ⟨w, hw, hop, hm⟩ := memorySlot_faults h
  refine ⟨w, hw, hop, ?_⟩
  simp only [runStages, runSlot_fetch, runSlot_decode, runSlot_execute, runSlot_memory, runSlot_writeback, andThen_next, hm,
    commit, raiseFatal_run, if_true]

/-! ### The clock edge -/

theorem step_rst {s : State} (h : s.rst = true) : step s = .next s.resetEdge := by simp [step, clockEdge, h]

theorem step_stopped {s : State} (h : s.rst = false) (run : s.run ≠ .running) : step s = .next s := by
  simp [step, clockEdge, h, run]

theorem step_halt {s : State} (h : s.rst = false) (run : s.run = .running) (halt : s.memwb.instr.isHalt = true) :
    step s = .next (haltClock s) := by
  cases hs : s.memwb.instr with
  | ff a => simp [hs, Slot.isHalt] at halt
  | word w =>
    rw [hs, Slot.isHalt] at halt
    simp [step, clockEdge, h, run, cycle, runSlot_clock, hs, halt]

theorem step_tag {s : State} {a : Word} (h : s.rst = false) (run : s.run = .running) (tag : s.memwb.instr = .ff a) :
    step s = .next (s.raiseFatal (.fetchOutOfRange a)) := by
  simp [step, clockEdge, h, run, cycle, runSlot_clock, tag]

theorem cycleRuns_iff (s : State) :
    s.cycleRuns = true ↔ s.rst = false ∧ s.run = .running ∧ s.memwb.instr.isHalt = false ∧ s.memwb.instr.isTag = false := by
  simp [State.cycleRuns, and_assoc]

theorem step_cycle {s : State} (h : s.cycleRuns = true) : step s = runStages s := by
  obtain ⟨hr, run, hh, htag⟩ := (cycleRuns_iff s).1 h
  cases hs : s.memwb.instr with
  | ff a => simp [hs, Slot.isTag] at htag
  | word w =>
    rw [hs, Slot.isHalt] at hh
    simp [step, clockEdge, hr, run, cycle, runSlot_clock, hs, hh]

/-- A cycle that commits. -/
theorem step_commits {s : State} (h : s.commits = true) : step s = .next s.afterCycle := by
  simp only [State.commits, Bool.and_eq_true, Bool.not_eq_true'] at h
  rw [step_cycle h.1, runStages_ok ((cycleRuns_iff s).1 h.1).2.1 h.2]

/-- A cycle whose memory stage faults. -/
theorem step_memFaults {s : State} (h : s.cycleRuns = true) (f : s.memFaults = true) :
    ∃ w, s.exmem.instr = .word w ∧ (isOpcode w 2#10 = true ∨ isOpcode w 3#10 = true) ∧
      step s = .next (s.raiseFatal (.memBounds s.exmem.aluResult w)) := by
  rw [step_cycle h]
  exact runStages_fault f

/-- The six ways a clock edge ends; it always ends in a next state. -/
theorem step_cases (s : State) :
    (s.rst = true ∧ step s = .next s.resetEdge) ∨
    (s.rst = false ∧ s.run ≠ .running ∧ step s = .next s) ∨
    (s.rst = false ∧ s.run = .running ∧ s.memwb.instr.isHalt = true ∧ step s = .next (haltClock s)) ∨
    (∃ a, s.rst = false ∧ s.run = .running ∧ s.memwb.instr = .ff a ∧
      step s = .next (s.raiseFatal (.fetchOutOfRange a))) ∨
    (∃ w, s.cycleRuns = true ∧ s.memFaults = true ∧ s.exmem.instr = .word w ∧
      (isOpcode w 2#10 = true ∨ isOpcode w 3#10 = true) ∧ step s = .next (s.raiseFatal (.memBounds s.exmem.aluResult w))) ∨
    (s.commits = true ∧ step s = .next s.afterCycle) := by
  cases hr : s.rst with
  | true => exact .inl ⟨rfl, step_rst hr⟩
  | false =>
    by_cases run : s.run = .running
    · cases hh : s.memwb.instr.isHalt with
      | true => exact .inr (.inr (.inl ⟨rfl, run, rfl, step_halt hr run hh⟩))
      | false =>
        cases hs : s.memwb.instr with
        | ff a => exact .inr (.inr (.inr (.inl ⟨a, rfl, run, rfl, step_tag hr run hs⟩)))
        | word w =>
          have hc : s.cycleRuns = true := (cycleRuns_iff s).2 ⟨hr, run, hh, by rw [hs]; rfl⟩
          cases hm : s.memFaults with
          | true =>
            obtain ⟨w, h1, h2, h3⟩ := step_memFaults hc hm
            exact .inr (.inr (.inr (.inr (.inl ⟨w, hc, rfl, h1, h2, h3⟩))))
          | false =>
            have hcm : s.commits = true := by simp [State.commits, hc, hm]
            exact .inr (.inr (.inr (.inr (.inr ⟨hcm, step_commits hcm⟩))))
    · exact .inr (.inl ⟨rfl, run, step_stopped hr run⟩)

/-- A clock edge always ends in a next state. -/
theorem step_next (s : State) : ∃ t, step s = .next t := by
  rcases step_cases s with ⟨_, e⟩ | ⟨_, _, e⟩ | ⟨_, _, _, e⟩ | ⟨_, _, _, _, e⟩ | ⟨_, _, _, _, _, e⟩ | ⟨_, e⟩ <;>
    exact ⟨_, e⟩

/-! ### Several edges -/

theorem steps_zero (s : State) : steps 0 s = .next s := rfl

theorem steps_succ {k : Nat} {s t : State} (h : step s = .next t) : steps (k + 1) s = steps k t := by
  have h : Sys2Proof.core.step s = .next t := h
  simp only [steps, Host.Core.run, h]
  rfl

/-- One more edge at the end. -/
theorem steps_then {k : Nat} {s t u : State} (h : steps k s = .next t) (e : step t = .next u) :
    steps (k + 1) s = .next u := by
  induction k generalizing s with
  | zero => cases h; exact steps_succ e
  | succ k ih =>
    obtain ⟨v, hv⟩ := step_next s
    rw [steps_succ hv] at h ⊢
    exact ih h

end Sys2Proof.Machine
end

