-- ==== Sys2Proof/Tests/Slice0.lean ====
section
/-! SUPPORT. The model's own tests, on fixed values, and for each statement a state and operands that meet its
hypotheses. Expected words and results are worked by hand from the rules of spec/ named here, or are those of 95_test_vectors.md. -/

namespace Sys2Proof.Tests

open Sys2Proof Sys2Proof.Machine

/-! ### WellFormed: an ill-formed term for each check -/
theorem test_wf_refuses_data31 :
    (Instr.data31 0x0FF 0 0 0).wf = false := by decide

theorem test_wf_refuses_data30 :
    (Instr.data30 0x200 0 0 0).wf = false := by decide

theorem test_wf_refuses_data29 :
    (Instr.data29 0x07F 0 0 0).wf = false := by decide

theorem test_wf_refuses_data28 :
    (Instr.data28 0x080 0 0 0).wf = false := by decide

theorem test_wf_refuses_data27 :
    (Instr.data27 0x01F 0 0 0).wf = false := by decide

theorem test_wf_refuses_data26 :
    (Instr.data26 0x020 0 0 0).wf = false := by decide

theorem test_wf_refuses_data25 :
    (Instr.data25 0x007 0 0 0).wf = false := by decide

theorem test_wf_admits_every_data_row :
    ((Instr.data31 0x200 0 0 0).wf && (Instr.data30 0x1FF 0 0 0).wf && (Instr.data29 0x080 0 0 0).wf &&
      (Instr.data28 0x07F 0 0 0).wf && (Instr.data27 0x020 0 0 0).wf && (Instr.data26 0x01F 0 0 0).wf &&
      (Instr.data25 0x008 0 0 0).wf) = true := by decide

/-! ### Decode: a word of every constructor, bit by bit from 30_encoding.md R100 to R107 (opcode, fA, fB, fC) -/
theorem test_decode_add :
    decode 0b00000000000010101010101111001011 = .add 1 2 0xABCB := by decide

theorem test_decode_nand :
    decode 0b00000000011110000000000000000011 = .nand 7 0 0x0003 := by decide

theorem test_decode_lw :
    decode 0b00000000100011101000000000000000 = .lw 1 6 0x8000 := by decide

theorem test_decode_sw :
    decode 0b00000000111000110111111111111111 = .sw 4 3 0x7FFF := by decide

theorem test_decode_beq :
    decode 0b00000001000001011111111111111100 = .beq 0 5 0xFFFC := by decide

theorem test_decode_jalr :
    decode 0b00000001011100010000000000000000 = .jalr 6 1 0x0000 := by decide

theorem test_decode_halt :
    decode 0b00000001100101110001001000110100 = .halt 2 7 0x1234 := by decide

theorem test_decode_noop :
    decode 0b00000001111011001000000000000001 = .noop 5 4 0x8001 := by decide

theorem test_decode_data31 :
    decode 0b10000000010001110000000000000001 = .data31 513 0 7 0x0001 := by decide

theorem test_decode_data30 :
    decode 0b01111111110110111000000000000000 = .data30 511 3 3 0x8000 := by decide

theorem test_decode_data29 :
    decode 0b00101010100010000000000000000010 = .data29 170 1 0 0x0002 := by decide

theorem test_decode_data28 :
    decode 0b00010000001110010000000000000011 = .data28 64 7 1 0x0003 := by decide

theorem test_decode_data27 :
    decode 0b00001110000100101111111111111111 = .data27 56 2 2 0xFFFF := by decide

theorem test_decode_data26 :
    decode 0b00000111111101010101010101010101 = .data26 31 6 5 0x5555 := by decide

theorem test_decode_data25 :
    decode 0b00000010000000000000000000000000 = .data25 8 0 0 0x0000 := by decide

/-- 20_memory.md and 30_encoding.md R114: an instruction is one word, so bits above the row's are 0. -/
theorem test_decodeTableWord :
    decodeTableWord 32 0x004A0003 = some (.nand 1 2 3) := by decide

/-- 30_encoding.md R115: `sw r1, -1(r2)`. -/
theorem test_asm_negative_offset :
    encode (Asm.sw 1 (-1) 2) = 0x00CAFFFF := by decide

/-! ### One turn of each instruction -/

/-- The state a result goes on to. -/
def out (r : Result) : State :=
  match r with
  | .next t => t
  | .fault _ => .reset
  | .refused _ => .reset

/-- The state one clock edge on. -/
def nextOf (s : State) : State := out (step s)

/-- The state `k` edges on. -/
def after : Nat → State → State
  | 0, s => s
  | k + 1, s => after k (nextOf s)

/-- A small state in the middle of a run: registers `r1 = 5`, `r2 = 7`; in ID/EX the operands 5 and 7, the offset -1 and
the pc 10; in EX/MEM the ALU result `alu`, the store data 9 and the target 20; in MEM/WB the value 12. -/
def mid (turn : Stage) (alu : Word) : State :=
  { State.reset with
    regs := (State.reset.regs.write 1 5).write 2 7
    pc := 3
    ifid := { instr := .bubble, pcPlus1 := 10 }
    idex := { instr := .bubble, pcPlus1 := 10, readRegA := 5, readRegB := 7, offset := -1 }
    exmem := { instr := .bubble, branchTarget := 20, aluResult := alu, storeData := 9 }
    memwb := { instr := .bubble, writeData := 12 }
    stage := turn }

/-- The same state with `lw r2, 0(r0)` in EX/MEM. -/
def behindLoad : State :=
  { mid .execute 4 with exmem := { instr := .word 0x00900000, branchTarget := 0, aluResult := 4, storeData := 0 } }

theorem test_add_execute :
    (out (exec (.add 1 2 3) (mid .execute 0))).exmem.aluResult = 12 := by decide

theorem test_add_writeback :
    (out (exec (.add 1 2 0xFFF8) (mid .writeback 0))).regs.read 0 = 12 := by decide

theorem test_nand_execute :
    (out (exec (.nand 1 2 3) (mid .execute 0))).exmem.aluResult = 0xFFFFFFFA := by decide

theorem test_nand_writeback :
    (out (exec (.nand 1 2 2) (mid .writeback 0))).regs.read 2 = 12 := by decide

theorem test_lw_execute :
    (out (exec (.lw 1 2 0xFFFF) (mid .execute 0))).exmem.aluResult = 6 := by decide

theorem test_lw_out_of_range :
    (out (exec (.lw 1 2 0) (mid .memory 65536))).fault = some { info := .memBounds 65536 0x008A0000, cycle := 0 } :=
  by decide

theorem test_sw_memory :
    (out (exec (.sw 1 2 0) (mid .memory 65535))).dmem = [(65535, 9)] := by decide

theorem test_sw_below_range :
    (out (exec (.sw 1 2 0) (mid .memory (-1)))).run = .faulted := by decide

theorem test_beq_execute :
    (out (exec (.beq 1 2 0) (mid .execute 0))).exmem.aluResult = 0xFFFFFFFE ∧
      (out (exec (.beq 1 2 0) (mid .execute 0))).exmem.branchTarget = 9 := by decide

theorem test_beq_taken :
    (out (exec (.beq 1 2 0) (mid .memory 0))).pc = 20 ∧
      (out (exec (.beq 1 2 0) (mid .memory 0))).ifid = .bubble := by decide

theorem test_jalr_writes_no_register :
    (out (exec (.jalr 1 2 0) (mid .writeback 0))).regs = (mid .writeback 0).regs ∧
      (out (exec (.jalr 1 2 0) (mid .memory 0))).pc = 3 := by decide

theorem test_halt_clock :
    (out (exec (.halt 0 0 0) (mid .clock 0))).run = .halted ∧
      (out (exec (.halt 0 0 0) (mid .clock 0))).cycles = 0 := by decide

theorem test_noop_writeback :
    (out (exec (.noop 0 0 0) (mid .writeback 0))).regs = (mid .writeback 0).regs ∧
      (out (exec (.noop 0 0 0) (mid .writeback 0))).retired = 1 := by decide

theorem test_data31_has_no_effect :
    (out (exec (.data31 1023 1 2 3) (mid .writeback 0))).regs = (mid .writeback 0).regs ∧
      (out (exec (.data31 1023 1 2 3) (mid .execute 0))).exmem.aluResult = 0 := by decide

theorem test_data30_has_no_effect :
    (out (exec (.data30 511 1 2 3) (mid .writeback 0))).regs = (mid .writeback 0).regs ∧
      (out (exec (.data30 511 1 2 3) (mid .execute 0))).exmem.aluResult = 0 := by decide

theorem test_data29_has_no_effect :
    (out (exec (.data29 128 1 2 3) (mid .writeback 0))).regs = (mid .writeback 0).regs ∧
      (out (exec (.data29 128 1 2 3) (mid .execute 0))).exmem.aluResult = 0 := by decide

theorem test_data28_has_no_effect :
    (out (exec (.data28 64 1 2 3) (mid .writeback 0))).regs = (mid .writeback 0).regs ∧
      (out (exec (.data28 64 1 2 3) (mid .execute 0))).exmem.aluResult = 0 := by decide

theorem test_data27_has_no_effect :
    (out (exec (.data27 32 1 2 3) (mid .writeback 0))).regs = (mid .writeback 0).regs ∧
      (out (exec (.data27 32 1 2 3) (mid .execute 0))).exmem.aluResult = 0 := by decide

theorem test_data26_has_no_effect :
    (out (exec (.data26 16 1 2 3) (mid .writeback 0))).regs = (mid .writeback 0).regs ∧
      (out (exec (.data26 16 1 2 3) (mid .execute 0))).exmem.aluResult = 0 := by decide

theorem test_data25_has_no_effect :
    (out (exec (.data25 8 1 2 3) (mid .writeback 0))).regs = (mid .writeback 0).regs ∧
      (out (exec (.data25 8 1 2 3) (mid .execute 0))).exmem.aluResult = 0 := by decide

/-- 95_test_vectors.md: the step runs the word `withFetchWord` places. -/
theorem test_withFetchWord_is_fetched :
    (nextOf (State.reset.withFetchWord 32 0x000A0003)).ifid = { instr := .word 0x000A0003, pcPlus1 := 1 } := by decide

/-- 95_test_vectors.md HALT1: a HALT alone stops after four cycles. -/
theorem test_halt_alone :
    (after 5 (State.boot [0x01800000])).run = .halted ∧ (after 5 (State.boot [0x01800000])).cycles = 4 := by decide

theorem test_reset_memory_is_canonical :
    State.reset.dmem.wf = true ∧ State.reset.imem.wf = true := by decide

theorem test_write_of_the_unlisted_value_removes :
    Memory.write (Memory.write [] 3 5) 3 0 = [] := by decide

/-! ### Witnesses: every statement's hypotheses are met together -/
theorem step_nextOf (s : State) : step s = .next (nextOf s) := by
  obtain ⟨t, e⟩ := step_next s
  simp only [nextOf, e]
  rfl

theorem steps_after (k : Nat) (s : State) : steps k s = .next (after k s) := by
  induction k generalizing s with
  | zero => rfl
  | succ k ih => rw [steps_succ (step_nextOf s), ih]; rfl

/-- Reset with these slots in ID/EX, EX/MEM, MEM/WB and WB/END; EX/MEM's result is `alu`, its store data 9, its
target 20, and the two write values are 12 and 13. -/
def slots (x m b e alu : Word) : State :=
  { State.reset with
    regs := (State.reset.regs.write 1 5).write 2 7
    idex := { instr := .word x, pcPlus1 := 10, readRegA := 5, readRegB := 7, offset := 0 }
    exmem := { instr := .word m, branchTarget := 20, aluResult := alu, storeData := 9 }
    memwb := { instr := .word b, writeData := 12 }
    wbend := { instr := .word e, writeData := 13 } }

/-- `noop` (30_encoding.md R109). -/
def nop : Word := 0x01C00000

/-- `add r4, r1, r2`. -/
def add412 : Word := 0x000A0004

/-- `add r1, r2, r2`. -/
def add122 : Word := 0x00120001

/-- `lw r1, 0(r0)`. -/
def lw1 : Word := 0x00880000

/-- `sw r1, 0(r0)`. -/
def sw1 : Word := 0x00C80000

/-- `beq r1, r2, 0`. -/
def beq12 : Word := 0x010A0000

/-- `halt`. -/
def hlt : Word := 0x01800000

/-- A load-use stall. -/
def stalling : State := slots add412 lw1 nop nop 4

/-- A taken branch with an older `add r1` in MEM/WB. -/
def branching : State := slots add412 beq12 add122 nop 0

/-- The stale operand of 95_test_vectors.md HZ-2: `add r1, r2, r2; noop; lw r3, 20(r0); add r4, r1, r3`. -/
def staleRun : State :=
  { State.boot [0x00120001, nop, 0x00980014, 0x000B0004, hlt] with regs := State.reset.regs.write 2 5 }

theorem witness_DecodeOfEncode :
    (Instr.data31 0x200 0 0 0).wf = true ∧ (Instr.data25 0x00F 7 7 0xFFFF).wf = true ∧
      (Instr.add 7 7 0xFFFF).wf = true := by decide

theorem witness_ResetEdgeResetsAllButMemories :
    (stalling.withRst true).rst = true := rfl

theorem witness_LoadPutsTheImageInBothMemories_held :
    (State.reset.withRst true).rst = true ∧ (List.replicate 65536 (1 : Word)).length ≤ 65536 :=
  ⟨rfl, List.length_replicate.le⟩

theorem witness_LoadPutsTheImageInBothMemories_released :
    State.reset.rst = false ∧ ([] : List Word).length ≤ 65536 := by decide

theorem witness_StepRunsTheDecodedInstructions :
    ∃ (s f d e m w : State) (w1 w2 w3 w4 : Word), s.cycleRuns = true ∧ inRange s.pc = true ∧
      s.ifid.instr = .word w1 ∧ s.idex.instr = .word w2 ∧ s.exmem.instr = .word w3 ∧ s.memwb.instr = .word w4 ∧
      exec (decode (s.imemRead s.pc)) { s with stage := .fetch } = .next f ∧
      exec (decode w1) { s with stage := .decode } = .next d ∧
      exec (decode w2) { s with stage := .execute } = .next e ∧
      exec (decode w3) { s with stage := .memory } = .next m ∧
      exec (decode w4) { s with stage := .writeback } = .next w :=
  ⟨stalling, _, _, _, _, _, nop, add412, lw1, nop, by decide, by decide, rfl, rfl, rfl, rfl, exec_fetch rfl, exec_decode rfl,
    exec_execute rfl, exec_memory rfl, exec_writeback rfl⟩

theorem witness_InstructionEffect_turns :
    (mid .fetch 0).stage = .fetch ∧ (mid .decode 0).stage = .decode ∧ (mid .execute 0).stage = .execute ∧
      (mid .memory 0).stage = .memory ∧ (mid .writeback 0).stage = .writeback ∧ (mid .clock 0).stage = .clock :=
  ⟨rfl, rfl, rfl, rfl, rfl, rfl⟩

theorem witness_AddEffect_execute :
    behindLoad.stage = .execute ∧ behindLoad.stallFor (.word (encode (.add 1 2 3))) = true ∧
      (mid .execute 0).stallFor (.word (encode (.add 1 2 3))) = false := by decide

theorem witness_NandEffect_execute :
    behindLoad.stage = .execute ∧ behindLoad.stallFor (.word (encode (.nand 1 2 3))) = true ∧
      (mid .execute 0).stallFor (.word (encode (.nand 1 2 3))) = false := by decide

theorem witness_LwEffect_execute :
    behindLoad.stage = .execute ∧ behindLoad.stallFor (.word (encode (.lw 1 2 0))) = true ∧
      (mid .execute 0).stallFor (.word (encode (.lw 1 2 0))) = false := by decide

theorem witness_SwEffect_execute :
    behindLoad.stage = .execute ∧ behindLoad.stallFor (.word (encode (.sw 1 2 0))) = true ∧
      (mid .execute 0).stallFor (.word (encode (.sw 1 2 0))) = false := by decide

theorem witness_BeqEffect_execute :
    behindLoad.stage = .execute ∧ behindLoad.stallFor (.word (encode (.beq 1 2 0))) = true ∧
      (mid .execute 0).stallFor (.word (encode (.beq 1 2 0))) = false := by decide

theorem witness_JalrHasNoEffect_execute :
    (behindLoad.withParams { Config.Params.default with stallSources := .fields }).stallFor (.word (encode (.jalr 1 2 0))) = true ∧
      behindLoad.params.stallSources = .used ∧ behindLoad.stallFor (.word (encode (.jalr 1 2 0))) = false := by decide

theorem witness_HaltEffect_execute :
    (behindLoad.withParams { Config.Params.default with stallSources := .fields }).stallFor (.word (encode (.halt 1 2 0))) = true ∧
      behindLoad.params.stallSources = .used ∧ behindLoad.stallFor (.word (encode (.halt 1 2 0))) = false := by decide

theorem witness_NoopEffect_execute :
    (behindLoad.withParams { Config.Params.default with stallSources := .fields }).stallFor (.word (encode (.noop 1 2 0))) = true ∧
      behindLoad.params.stallSources = .used ∧ behindLoad.stallFor (.word (encode (.noop 1 2 0))) = false := by decide

theorem witness_DataHasNoEffect_execute :
    (behindLoad.withParams { Config.Params.default with stallSources := .fields }).stallFor (.word (encode (.data25 8 1 2 0))) = true ∧
      behindLoad.params.stallSources = .used ∧
      behindLoad.stallFor (.word (encode (.data25 8 1 2 0))) = false := by decide

theorem witness_LwEffect_fields :
    (behindLoad.withParams { Config.Params.default with stallSources := .fields }).params.stallSources = .fields ∧
      (behindLoad.withParams { Config.Params.default with stallSources := .fields }).stallFor
        (.word (encode (.lw 2 1 0))) = true ∧ behindLoad.stallFor (.word (encode (.lw 2 1 0))) = false := by decide

theorem witness_LwEffect_memory_in_range :
    (mid .memory 0).exmem.aluResult.toInt = 0 ∧ (mid .memory 65535).exmem.aluResult.toInt = 65535 := by decide

theorem witness_SwEffect_memory_out_of_range :
    (mid .memory (-1)).exmem.aluResult.toInt = -1 ∧ (mid .memory 65536).exmem.aluResult.toInt = 65536 := by decide

theorem witness_LwEffect_stalls_others :
    ({ stalling with exmem := { stalling.exmem with instr := .word (encode (.lw 1 0 0)) } } : State).exmem.instr = .word (encode (.lw 1 0 0)) :=
  rfl

theorem witness_BeqEffect_memory :
    (mid .memory 0).exmem.aluResult = 0 ∧ (mid .memory 1).exmem.aluResult ≠ 0 := by decide

theorem witness_DataHasNoEffect_rows :
    (Instr.data25 8 0 0 0).wf = true ∧ 8 ≤ (Instr.data25 8 0 0 0).opcode.toNat ∧
      (Instr.data31 1023 7 7 0xFFFF).wf = true ∧
      (0x80000000 : Word).toInt < 0 := by decide

theorem witness_EveryRegisterKeepsWhatIsWritten :
    (1 : RegIdx) ≠ 0 := by decide

theorem witness_RegistersChangeOnlyByWriteback :
    branching.rst = false ∧ branching.commits = true ∧ branching.memwb.instr.dest = some 1 ∧
      step branching = .next (nextOf branching) :=
  ⟨by decide, by decide, by decide, step_nextOf _⟩

theorem witness_InstructionMemoryNeverChanges :
    step stalling = .next (nextOf stalling) := step_nextOf _

theorem witness_DataMemoryChangesOnlyByAStore_bottom :
    (slots nop sw1 nop nop 0).dmem.wf = true ∧ (slots nop sw1 nop nop 0).commits = true ∧
      (slots nop sw1 nop nop 0).exmem.instr.isSw = true ∧
      step (slots nop sw1 nop nop 0) = .next (nextOf (slots nop sw1 nop nop 0)) :=
  ⟨by decide, by decide, by decide, step_nextOf _⟩

theorem witness_DataMemoryChangesOnlyByAStore_top :
    (slots nop sw1 nop nop 65535).dmem.wf = true ∧ (slots nop sw1 nop nop 65535).commits = true ∧
      (slots nop sw1 nop nop 65535).exmem.instr.isSw = true ∧
      step (slots nop sw1 nop nop 65535) = .next (nextOf (slots nop sw1 nop nop 65535)) :=
  ⟨by decide, by decide, by decide, step_nextOf _⟩

/-- `sw r1, 0(r0)` in EX/MEM with address 5, and `lw r1, 5(r0)` behind it. -/
def storeLoad : State :=
  { slots 0x00880005 sw1 nop nop 5 with
    idex := { instr := .word 0x00880005, pcPlus1 := 1, readRegA := 0, readRegB := 0, offset := 5 } }

theorem witness_LoadAfterStoreGetsTheStoredWord :
    storeLoad.dmem.wf = true ∧ storeLoad.commits = true ∧ storeLoad.exmem.instr.isSw = true ∧
      step storeLoad = .next (nextOf storeLoad) ∧ (nextOf storeLoad).cycleRuns = true ∧
      (nextOf storeLoad).exmem.instr.isLw = true ∧ (nextOf storeLoad).exmem.aluResult = storeLoad.exmem.aluResult ∧
      step (nextOf storeLoad) = .next (nextOf (nextOf storeLoad)) :=
  ⟨by decide, by decide, by decide, step_nextOf _, by decide, by decide, by decide, step_nextOf _⟩

theorem witness_ForwardingTakesTheYoungestProducer :
    (slots add412 add122 add122 add122 4).params.fwdLoadOverride = false ∧
      (slots add412 add122 add122 add122 4).exmem.instr.dest = some 1 ∧
      (slots add412 nop add122 add122 4).exmem.instr.dest ≠ some 1 ∧
      (slots add412 nop add122 add122 4).memwb.instr.dest = some 1 ∧
      (slots add412 nop nop add122 4).memwb.instr.dest ≠ some 1 ∧
      (slots add412 nop nop add122 4).wbend.instr.dest = some 1 ∧
      (slots add412 nop nop nop 4).wbend.instr.dest ≠ some 1 := by decide

/-- The same under `FWD_LOAD_OVERRIDE`. -/
def overriding (m b e : Word) : State :=
  (slots add412 m b e 4).withParams { Config.Params.default with fwdLoadOverride := true }

theorem witness_ForwardingTakesTheYoungestProducer_override :
    (overriding add122 lw1 lw1).params.fwdLoadOverride = true ∧
      (overriding add122 lw1 lw1).memwb.instr.isLw = true ∧ (overriding add122 lw1 lw1).memwb.instr.fieldA = some 1 ∧
      ¬ ((overriding add122 add122 lw1).memwb.instr.isLw = true ∧
        (overriding add122 add122 lw1).memwb.instr.fieldA = some 1) ∧
      (overriding add122 add122 lw1).wbend.instr.isLw = true ∧
      (overriding add122 add122 lw1).wbend.instr.fieldA = some 1 ∧
      ¬ ((overriding add122 add122 nop).wbend.instr.isLw = true ∧
        (overriding add122 add122 nop).wbend.instr.fieldA = some 1) := by decide

theorem witness_ForwardingReadingsDifferOnlyBehindAnOlderLoad :
    (slots add412 add122 lw1 nop 4).idex.instr = .word add412 ∧ (1 : RegIdx) ∈ usedSrcs (decode add412) ∧
      (slots add412 add122 lw1 nop 4).stall = false ∧
      (slots add412 add122 lw1 nop 4).fwdOverride 1 0 ≠ (slots add412 add122 lw1 nop 4).fwdYoungest 1 0 := by decide

theorem witness_FieldsReadingStallsWheneverUsedDoes :
    (stalling.withParams { stalling.params with stallSources := .used }).stallFor (.word add412) = true := by decide

theorem witness_StallHoldsTheFrontAndDeliversTheLoad :
    stalling.commits = true ∧ stalling.stall = true ∧ stalling.exmem.instr.dest = some 1 ∧
      step stalling = .next (nextOf stalling) :=
  ⟨by decide, by decide, by decide, step_nextOf _⟩

theorem witness_OperandIsStaleAfterALoadUseStall :
    (after 4 staleRun).cycleRuns = true ∧ step (after 4 staleRun) = .next (after 5 staleRun) ∧
      (after 5 staleRun).cycleRuns = true ∧ step (after 5 staleRun) = .next (after 6 staleRun) ∧
      (after 6 staleRun).cycleRuns = true ∧ (after 5 staleRun).stall = true ∧
      (after 5 staleRun).idex.instr = .word 0x000B0004 ∧ (1 : RegIdx) ∈ usedSrcs (decode 0x000B0004) ∧
      (after 5 staleRun).wbend.instr.dest = some 1 ∧ (after 5 staleRun).exmem.instr.dest ≠ some 1 ∧
      (after 5 staleRun).memwb.instr.dest ≠ some 1 :=
  ⟨by decide, step_nextOf _, by decide, step_nextOf _, by decide, by decide, by decide, by decide, by decide, by decide,
    by decide⟩

theorem witness_TakenBranchFlushesThreeLatches :
    branching.commits = true ∧ branching.exmem.instr.isBeq = true ∧ branching.exmem.aluResult = 0 ∧
      branching.memwb.instr.dest = some 1 ∧ step branching = .next (nextOf branching) :=
  ⟨by decide, by decide, by decide, by decide, step_nextOf _⟩

theorem witness_NotTakenBranchOnlyCounts :
    (slots nop beq12 nop nop 1).commits = true ∧ (slots nop beq12 nop nop 1).exmem.instr.isBeq = true ∧
      (slots nop beq12 nop nop 1).exmem.aluResult ≠ 0 ∧
      step (slots nop beq12 nop nop 1) = .next (nextOf (slots nop beq12 nop nop 1)) :=
  ⟨by decide, by decide, by decide, step_nextOf _⟩

theorem witness_ThreeBubblesFollowATakenBranch :
    branching.commits = true ∧ branching.taken = true ∧ step branching = .next (after 1 branching) ∧
      step (after 1 branching) = .next (after 2 branching) ∧ step (after 2 branching) = .next (after 3 branching) :=
  ⟨by decide, by decide, step_nextOf _, step_nextOf _, step_nextOf _⟩

theorem witness_PcHasThreeWriters :
    branching.rst = false ∧ branching.commits = true ∧ branching.taken = true ∧ stalling.rst = false ∧
      stalling.commits = true ∧ stalling.taken = false ∧ stalling.stall = true ∧ State.reset.commits = true ∧
      State.reset.stall = false ∧ ({ stalling with run := .halted } : State).commits = false := by decide

theorem witness_CommitIncrementsCycles :
    State.reset.commits = true := by decide

theorem witness_CountersOfACommittedCycle :
    branching.commits = true ∧ branching.taken = true ∧ stalling.commits = true ∧ stalling.stall = true ∧
      step stalling = .next (nextOf stalling) :=
  ⟨by decide, by decide, by decide, by decide, step_nextOf _⟩

theorem witness_CounterIdentitiesHoldOfEveryRun :
    steps 3 ((State.boot [lw1, add412, hlt]).withParams .default) =
      .next (after 3 ((State.boot [lw1, add412, hlt]).withParams .default)) := steps_after _ _

theorem witness_HaltInMemWbStopsTheCore :
    (slots nop lw1 hlt nop (-1)).rst = false ∧ (slots nop lw1 hlt nop (-1)).run = .running ∧
      (slots nop lw1 hlt nop (-1)).memwb.instr.isHalt = true := by decide

theorem witness_TagInMemWbFaultsTheCore :
    ∃ s : State, s.rst = false ∧ s.run = .running ∧ s.memwb.instr = .ff 65536 :=
  ⟨{ State.reset with memwb := { instr := .ff 65536, writeData := 0 } }, rfl, rfl, rfl⟩

theorem witness_AccessOutOfRangeFaultsTheCore_below :
    (slots nop lw1 add122 nop (-1)).cycleRuns = true ∧ (slots nop lw1 add122 nop (-1)).exmem.instr = .word lw1 ∧
      (opOf lw1 = 2#10 ∨ opOf lw1 = 3#10) ∧
      ((slots nop lw1 add122 nop (-1)).exmem.aluResult.toInt < 0 ∨ 65536 ≤ (slots nop lw1 add122 nop (-1)).exmem.aluResult.toInt) :=
  by decide

theorem witness_AccessOutOfRangeFaultsTheCore_above :
    (slots nop sw1 add122 nop 65536).cycleRuns = true ∧ (slots nop sw1 add122 nop 65536).exmem.instr = .word sw1 ∧
      (opOf sw1 = 2#10 ∨ opOf sw1 = 3#10) ∧
      ((slots nop sw1 add122 nop 65536).exmem.aluResult.toInt < 0 ∨ 65536 ≤ (slots nop sw1 add122 nop 65536).exmem.aluResult.toInt) :=
  by decide

theorem witness_RunningEndsOnlyByHaltOrFatalCause :
    (slots nop nop hlt nop 0).rst = false ∧ (slots nop nop hlt nop 0).run = .running ∧
      (slots nop nop hlt nop 0).memwb.instr.isHalt = true ∧ (slots nop lw1 nop nop (-1)).cycleRuns = true ∧
      (slots nop lw1 nop nop (-1)).memFaults = true ∧
      step (slots nop nop hlt nop 0) = .next (nextOf (slots nop nop hlt nop 0)) :=
  ⟨by decide, by decide, by decide, by decide, by decide, step_nextOf _⟩

theorem witness_TerminalStatesStayUntilReset :
    ({ stalling with run := .halted } : State).run ≠ .running ∧
      ({ stalling with run := .faulted } : State).rst = false ∧
      ({ stalling with run := .faulted, rst := true } : State).rst = true := by decide

theorem witness_OutputsShowTheFault :
    State.reset.fault = none := rfl

theorem witness_BeqEffect_target_out_of_range :
    inRange ({ mid .memory 0 with exmem := { instr := .bubble, branchTarget := 65536, aluResult := 0, storeData := 0 } } : State).exmem.branchTarget = false :=
  by decide

theorem witness_MemoryPortsCarryTheCyclesAccesses :
    (slots nop lw1 nop nop 65535).commits = true ∧ (slots nop lw1 nop nop 65535).memoryPorts.dmemRe = true ∧
      (slots nop sw1 nop nop 0).memoryPorts.dmemWe = true ∧ (slots nop lw1 nop nop 65535).memoryPorts.dmemWe = false ∧
      State.reset.memoryPorts.imemEn = true ∧ State.reset.commits = true ∧ State.reset.stall = false ∧
      State.reset.taken = false ∧ step State.reset = .next (nextOf .reset) :=
  ⟨by decide, by decide, by decide, by decide, by decide, by decide, by decide, by decide, step_nextOf _⟩

theorem witness_HostReadsDataMemoryOnlyWhenStopped :
    65535 < 65536 ∧ ({ stalling with run := .halted } : State).run = .halted ∧ (stalling.withRst true).rst = true ∧
      stalling.rst = false ∧ stalling.run = .running := by decide

theorem witness_FetchOutOfRangeFaultsAfterFourCycles_below :
    ({ State.reset with pc := (-1) } : State).rst = false ∧ ({ State.reset with pc := (-1) } : State).run = .running ∧
      ({ State.reset with pc := (-1) } : State).drained = true ∧
      (({ State.reset with pc := (-1) } : State).pc.toInt < 0 ∨ 65536 ≤ ({ State.reset with pc := (-1) } : State).pc.toInt) :=
  by decide

theorem witness_FetchOutOfRangeFaultsAfterFourCycles_above :
    ({ State.reset with pc := 65536 } : State).rst = false ∧
      ({ State.reset with pc := 65536 } : State).run = .running ∧
      ({ State.reset with pc := 65536 } : State).drained = true ∧
      (({ State.reset with pc := 65536 } : State).pc.toInt < 0 ∨ 65536 ≤ ({ State.reset with pc := 65536 } : State).pc.toInt) :=
  by decide

theorem witness_InvariantHoldsAtReset :
    (List.replicate 65536 (7 : Word)).length ≤ 65536 := List.length_replicate.le

theorem witness_InvariantIsKept :
    stalling.inv = true ∧ step stalling = .next (nextOf stalling) :=
  ⟨by decide, step_nextOf _⟩

theorem witness_UnreadLatchValuesReachNothing :
    stalling ≠ { stalling with memwb := { instr := .word nop, writeData := 99 } } ∧
      stalling.observed = ({ stalling with memwb := { instr := .word nop, writeData := 99 } } : State).observed :=
  by decide

theorem witness_AluInstructionCompletesInFiveCycles_add :
    Ready (State.boot [add412, hlt]) (.add 1 2 4) := by
  unfold Ready; decide

theorem witness_AluInstructionCompletesInFiveCycles_nand :
    Ready (State.boot [0x004A0004, hlt]) (.nand 1 2 4) := by
  unfold Ready; decide

theorem witness_LoadCompletesInFiveCycles_bottom :
    Ready (State.boot [lw1, hlt]) (.lw 1 0 0) ∧
      inRange (effectiveAddress ((State.boot [lw1, hlt]).regs.read 0) (sext16 0)) = true := by
  unfold Ready; decide

/-- `lw r1, 1(r2)` with `r2 = 65534`: the highest address. -/
def loadTop : State := { State.boot [0x008A0001, hlt] with regs := State.reset.regs.write 2 65534 }

theorem witness_LoadCompletesInFiveCycles_top :
    Ready loadTop (.lw 1 2 1) ∧
      inRange (effectiveAddress (loadTop.regs.read 2) (sext16 1)) = true := by
  unfold Ready; decide

theorem witness_StoreCompletesInFourCycles :
    Ready (State.boot [sw1, lw1]) (.sw 1 0 0) ∧
      inRange (effectiveAddress ((State.boot [sw1, lw1]).regs.read 0) (sext16 0)) = true := by
  unfold Ready; decide

theorem witness_BranchResolvesInFourCycles :
    Ready (State.boot [beq12, lw1]) (.beq 1 2 0) ∧
      (State.boot [beq12, lw1]).regs.read 1 = (State.boot [beq12, lw1]).regs.read 2 ∧
      Ready (bootWith [beq12] 5 7) (.beq 1 2 0) ∧
      (bootWith [beq12] 5 7).regs.read 1 ≠ (bootWith [beq12] 5 7).regs.read 2 := by
  unfold Ready; decide

theorem witness_HaltDrainsInFourCycles :
    Ready (State.boot [hlt, lw1]) (.halt 0 0 0) := by
  unfold Ready; decide

theorem witness_NoEffectInstructionChangesNothing_jalr :
    (Instr.jalr 1 2 0).wf = true ∧ ((Instr.jalr 1 2 0).opcode = 5#10 ∨ 7 ≤ (Instr.jalr 1 2 0).opcode.toNat) ∧
      Ready (State.boot [0x014A0000, hlt]) (.jalr 1 2 0) := by
  unfold Ready; decide

theorem witness_NoEffectInstructionChangesNothing_noop :
    (Instr.noop 0 0 0).wf = true ∧ ((Instr.noop 0 0 0).opcode = 5#10 ∨ 7 ≤ (Instr.noop 0 0 0).opcode.toNat) ∧
      Ready (State.boot [nop, hlt]) (.noop 0 0 0) := by
  unfold Ready; decide

theorem witness_NoEffectInstructionChangesNothing_data :
    (Instr.data31 1023 7 7 0xFFFF).wf = true ∧
      ((Instr.data31 1023 7 7 0xFFFF).opcode = 5#10 ∨ 7 ≤ (Instr.data31 1023 7 7 0xFFFF).opcode.toNat) ∧
      Ready (State.boot [0xFFFFFFFF, hlt]) (.data31 1023 7 7 0xFFFF) := by
  unfold Ready; decide

/-- A cycle in the middle of a run: `add r4, r1, r2` in IF/ID and ID/EX, the pc at `pc`. -/
def ordinary (pc : Word) : State :=
  { slots add412 nop nop nop 0 with pc := pc, ifid := { instr := .word add412, pcPlus1 := 9 } }

/-- The same with fetch-fault tags in IF/ID and ID/EX. -/
def ordinaryTags : State :=
  { ordinary 65536 with
    ifid := { instr := .ff (-1), pcPlus1 := 0 }
    idex := { instr := .ff 65536, pcPlus1 := 3, readRegA := 0, readRegB := 0, offset := 0 } }

theorem witness_OrdinaryCycleMovesEveryLatch :
    (ordinary 65535).commits = true ∧ (ordinary 65535).stall = false ∧ (ordinary 65535).taken = false ∧
      step (ordinary 65535) = .next (nextOf (ordinary 65535)) ∧ (ordinary 65535).pc.toInt = 65535 ∧
      (ordinary 65535).ifid.instr = .word add412 ∧ (ordinary 65535).idex.instr = .word add412 :=
  ⟨by decide, by decide, by decide, step_nextOf _, by decide, rfl, rfl⟩

theorem witness_OrdinaryCycleMovesEveryLatch_tags :
    ordinaryTags.commits = true ∧ ordinaryTags.stall = false ∧ ordinaryTags.taken = false ∧
      step ordinaryTags = .next (nextOf ordinaryTags) ∧ ordinaryTags.pc.toInt = 65536 ∧
      ordinaryTags.ifid.instr = .ff (-1) ∧ ordinaryTags.idex.instr = .ff 65536 :=
  ⟨by decide, by decide, by decide, step_nextOf _, by decide, rfl, rfl⟩

theorem witness_CounterIdentitiesAreKept :
    stalling.rst = false ∧ CountersAgree 0 stalling ∧ step stalling = .next (nextOf stalling) ∧
      stalling.commits = true ∧ stalling.stall = true :=
  ⟨by decide, by unfold CountersAgree; decide, step_nextOf _, by decide, by decide⟩

theorem witness_CounterIdentitiesHoldAtReset :
    (stalling.withRst true).rst = true ∧ step (stalling.withRst true) = .next (nextOf (stalling.withRst true)) :=
  ⟨by decide, step_nextOf _⟩

/-- `lw r1, 0(r0)` with `lw r1, -1(r0)` behind it, which faults, and with `sw r1, 0(r0)` behind it, which does not. -/
def loadThen (follower : Word) : State := State.boot [lw1, follower, hlt]

theorem witness_LoadCompletesInFiveCycles_follower_faults :
    Ready (loadThen 0x0088FFFF) (.lw 1 0 0) ∧
      inRange (effectiveAddress ((loadThen 0x0088FFFF).regs.read 0) (sext16 0)) = true ∧
      (after 5 (loadThen 0x0088FFFF)).run ≠ .running := by
  unfold Ready; decide

theorem witness_LoadCompletesInFiveCycles_follower_in_range :
    Ready (loadThen sw1) (.lw 1 0 0) ∧ followerSlot (loadThen sw1) = .word sw1 ∧
      inRange (accessAddress (loadThen sw1).regs sw1) = true ∧ (after 5 (loadThen sw1)).run = .running ∧
      (followerSlot (loadThen hlt)).isSw = false := by
  unfold Ready; decide

end Sys2Proof.Tests
end

section
/-! The 16-bit offset as a number (00_scope.md R11, R12): its signed value after `sext16`, its unsigned value after `zext`. -/

namespace Sys2Proof

/-- A number in the signed 32-bit range is not changed by R11's reduction modulo 2^32. -/
theorem toInt_s32 {v : Int} (hlo : -2 ^ 31 ≤ v) (hhi : v < 2 ^ 31) : (s32 v).toInt = v :=
  BitVec.toInt_ofInt_eq_self (by decide) hlo hhi

theorem toInt_sext16 (c : CField) :
    (sext16 c).toInt = if c.getLsbD 15 = false then (c.toNat : Int) else (c.toNat : Int) - 65536 := by
  have hc : c.toNat < 65536 := c.isLt
  cases hsign : c.getLsbD 15 with
  | false =>
    simp only [sext16, hsign, Bool.false_eq_true, if_false, if_true]
    exact toInt_s32 (by omega) (by omega)
  | true =>
    simp only [sext16, hsign, Bool.true_eq_false, if_false, if_true]
    exact toInt_s32 (by omega) (by omega)

@[simp] theorem toNat_zext (c : CField) : (zext c).toNat = c.toNat :=
  BitVec.toNat_setWidth_of_le (by decide)

/-- Settles O4: both values of the sign bit give a number in the signed range, and `zext` only widens. -/
theorem signExtensionOfTheOffset : Obligations.SignExtensionOfTheOffset :=
  fun c => ⟨toInt_sext16 c, toNat_zext c⟩

end Sys2Proof
end

section
/-! The register file (10_state.md R31 to R33): its reset value, and a read after a write. -/

namespace Sys2Proof

open Sys2Proof.Machine

/-- R33's reset value, as reads see it. -/
@[simp] theorem read_replicate_zero (r : RegIdx) : RegFile.read (Vector.replicate 8 0) r = 0 :=
  Vector.getElem_replicate r.isLt

@[simp] theorem reset_regs : State.reset.regs = Vector.replicate 8 0 := rfl

@[simp] theorem resetEdge_regs (s : State) : s.resetEdge.regs = Vector.replicate 8 0 := rfl

/-- Settles O6: the reset state and a reset edge give the same register file, whose every read is 0. -/
theorem registersAreZeroAfterReset : Obligations.RegistersAreZeroAfterReset := by
  intro r s
  constructor
  · rw [reset_regs, read_replicate_zero]
  · rw [resetEdge_regs, read_replicate_zero]

/-- Settles O20: the read-after-write rules of the register file have no case for register 0. -/
theorem everyRegisterKeepsWhatIsWritten : Obligations.EveryRegisterKeepsWhatIsWritten :=
  fun regs r _ v => ⟨regs.read_write_self r v, fun ne => regs.read_write_other v ne.symm⟩

end Sys2Proof
end

section
/-! Decoding as a total function on words (30_encoding.md R102, R106): the fields by number, and what the decoder answers. -/

namespace Sys2Proof

open Sys2Proof.Machine

/-- A bit range of a word as a number, in R10's numbering. -/
theorem toNat_extractLsb'_eq_div (w : Word) (lo len : Nat) :
    (w.extractLsb' lo len).toNat = w.toNat / 2 ^ lo % 2 ^ len := by
  rw [BitVec.extractLsb'_toNat, Nat.shiftRight_eq_div_pow]

theorem toNat_fAOf (w : Word) : (fAOf w).toNat = w.toNat / 2 ^ 19 % 2 ^ 3 := toNat_extractLsb'_eq_div w 19 3

theorem toNat_fBOf (w : Word) : (fBOf w).toNat = w.toNat / 2 ^ 16 % 2 ^ 3 := toNat_extractLsb'_eq_div w 16 3

theorem toNat_fCOf (w : Word) : (fCOf w).toNat = w.toNat % 2 ^ 16 := by
  rw [fCOf, toNat_extractLsb'_eq_div, pow_zero, Nat.div_one]

/-- Settles O3: each field is one bit range of the word. -/
theorem fieldsAreTheWordsBits : Obligations.FieldsAreTheWordsBits :=
  fun w => ⟨toNat_fAOf w, toNat_fBOf w, toNat_fCOf w⟩

/-- R106's totality: no word decodes to a term that stands for no word. -/
@[simp] theorem wf_decode (w : Word) : (decode w).wf = true := ofFields_wf ..

/-- `isOpcode` tests the opcode of the decoded instruction (R106). -/
theorem isOpcode_iff_opcode_decode (w : Word) (k : OpField) : isOpcode w k = true ↔ (decode w).opcode = k := by
  rw [isOpcode_iff, opcode_decode]

/-- Settles O2: the opcode map selects a well-formed term for every opcode and carries all four fields over. -/
theorem everyWordDecodes : Obligations.EveryWordDecodes :=
  fun w => ⟨wf_decode w, opcode_decode w, fA_decode w, fB_decode w, fC_decode w, isOpcode_iff_opcode_decode w⟩

end Sys2Proof
end

section
/-! An instruction fetched into a drained pipeline (40_pipeline.md R157): its first three cycles, in which nothing older is in
flight and only fetch, decode and execute do work. They are the same for every instruction. -/

namespace Sys2Proof.Machine

/-- A running core with bubbles in the three oldest latches. -/
structure Quiet (s : State) : Prop where
  rst : s.rst = false
  run : s.run = .running
  exmem : s.exmem.instr = .bubble
  memwb : s.memwb.instr = .bubble
  wbend : s.wbend.instr = .bubble

/-- The next state of a quiet core: no stall, no branch and no forwarding. -/
def State.afterQuiet (s : State) : State :=
  { s with
    pc := s.pc + 1
    ifid := { instr := s.fetchSlot, pcPlus1 := s.pc + 1 }
    idex := (decodeStage s.ifid.instr s).idex
    exmem :=
      { instr := s.idex.instr
        branchTarget := s.idex.pcPlus1 + s.idex.offset
        aluResult := s.idex.instr.alu s.idex.readRegA s.idex.readRegB s.idex.offset
        storeData := s.idex.readRegA }
    memwb := { instr := .bubble, writeData := s.exmem.aluResult }
    wbend := { instr := .bubble, writeData := s.memwb.writeData }
    cycles := s.cycles + 1
    fetched := s.fetched + 1
    retired := s.retired + 1 }

theorem afterQuiet_exmem (s : State) :
    s.afterQuiet.exmem =
      { instr := s.idex.instr
        branchTarget := s.idex.pcPlus1 + s.idex.offset
        aluResult := s.idex.instr.alu s.idex.readRegA s.idex.readRegB s.idex.offset
        storeData := s.idex.readRegA } := rfl

@[simp] theorem decodeStage_idex_instr (slot : Slot) (s : State) : (decodeStage slot s).idex.instr = slot := by
  cases slot <;> rfl

/-- Only an LW in EX/MEM stalls the core (R138). -/
theorem stall_of_not_lw {s : State} (h : s.exmem.instr.isLw = false) : s.stall = false := by
  simp [State.stall, State.stallFor, h]

/-- Only a BEQ in EX/MEM branches (R147). -/
theorem taken_of_not_beq {s : State} (h : s.exmem.instr.isBeq = false) : s.taken = false := by
  simp [State.taken, h]

/-- Only an LW or SW in EX/MEM faults in the memory stage (R146). -/
theorem memFaults_of_no_access {s : State} (lw : s.exmem.instr.isLw = false) (sw : s.exmem.instr.isSw = false) :
    s.memFaults = false := by
  simp [State.memFaults, State.accesses, lw, sw]

@[simp] theorem bubble_isTag : Slot.bubble.isTag = false := rfl

/-- A cycle with a bubble in MEM/WB and no access in EX/MEM commits (R130, R151). -/
theorem commits_of_no_access {s : State} (rst : s.rst = false) (run : s.run = .running) (memwb : s.memwb.instr = .bubble)
    (lw : s.exmem.instr.isLw = false) (sw : s.exmem.instr.isSw = false) : s.commits = true := by
  simp [State.commits, State.cycleRuns, memFaults_of_no_access lw sw, rst, run, memwb]

/-- With nothing to forward from MEM/WB and WB/END, an operand read in decode is forwarded to what EX/MEM's occupant will
leave in its register (R143, R144). -/
theorem fwd_eq_read_writeDest {s : State} (memwb : s.memwb.instr = .bubble) (wbend : s.wbend.instr = .bubble)
    (regs : RegFile) (r : RegIdx) :
    s.fwd r (regs.read r) = (regs.writeDest s.exmem.instr.dest s.exmem.aluResult).read r := by
  simp [RegFile.read_writeDest, State.fwd, State.fwdOverride, State.fwdYoungest, Slot.loads, memwb, wbend]

namespace Quiet

variable {s : State}

theorem commits (q : Quiet s) : s.commits = true :=
  commits_of_no_access q.rst q.run q.memwb (by rw [q.exmem, bubble_isLw]) (by rw [q.exmem, bubble_isSw])

theorem fwd_eq (q : Quiet s) (r : RegIdx) (raw : Word) : s.fwd r raw = raw := by
  simp [State.fwd, State.fwdOverride, State.fwdYoungest, Slot.loads, q.exmem, q.memwb, q.wbend]

theorem operand_eq (q : Quiet s) (field : Option RegIdx) (raw : Word) : s.operand field raw = raw := by
  cases field with
  | none => rfl
  | some r => exact q.fwd_eq r raw

theorem step_eq (q : Quiet s) : step s = .next s.afterQuiet := by
  have stall : s.stall = false := stall_of_not_lw (by rw [q.exmem, bubble_isLw])
  have taken : s.taken = false := taken_of_not_beq (by rw [q.exmem, bubble_isBeq])
  have stallFor : s.stallFor s.idex.instr = false := stall
  rw [step_commits q.commits]
  simp [State.afterCycle, State.afterQuiet, State.memAfter, State.memValue, executeStage, State.operandA, State.operandB,
    q.operand_eq, q.exmem, q.memwb, stall, taken, stallFor]

/-- The core stays quiet while bubbles leave ID/EX. -/
theorem afterQuiet (q : Quiet s) (idex : s.idex.instr = .bubble) : Quiet s.afterQuiet :=
  ⟨q.rst, q.run, idex, rfl, rfl⟩

end Quiet

/-- Three quiet cycles on: what was fetched first is in EX/MEM, and its follower in ID/EX. -/
def State.afterThree (s : State) : State := s.afterQuiet.afterQuiet.afterQuiet

section
variable (s : State)

@[simp] theorem afterThree_rst : s.afterThree.rst = s.rst := rfl
@[simp] theorem afterThree_run : s.afterThree.run = s.run := rfl
@[simp] theorem afterThree_regs : s.afterThree.regs = s.regs := rfl
@[simp] theorem afterThree_dmem : s.afterThree.dmem = s.dmem := rfl
@[simp] theorem afterThree_memwb_instr : s.afterThree.memwb.instr = .bubble := rfl
@[simp] theorem afterThree_wbend_instr : s.afterThree.wbend.instr = .bubble := rfl

@[simp] theorem afterThree_cycles : s.afterThree.cycles = s.cycles + 3 := by
  change s.cycles + 1 + 1 + 1 = s.cycles + 3
  ac_rfl

@[simp] theorem afterThree_idex_instr : s.afterThree.idex.instr = followerSlot s := decodeStage_idex_instr ..

/-- The follower has read its base register and its offset from the registers as they were. -/
theorem afterThree_idex_of_follower {w : Word} (h : followerSlot s = .word w) :
    s.afterThree.idex.readRegB = s.regs.read (fBOf w) ∧ s.afterThree.idex.offset = sext16 (fCOf w) := by
  have ifid : s.afterQuiet.afterQuiet.ifid.instr = .word w := h
  have idex : s.afterThree.idex = (decodeStage (.word w) s.afterQuiet.afterQuiet).idex :=
    congrArg (fun slot => (decodeStage slot s.afterQuiet.afterQuiet).idex) ifid
  rw [idex]
  exact ⟨rfl, rfl⟩

end

/-- EX/MEM after three edges: the ALU's value of the registers as they were (R140). -/
theorem Ready.afterThree_exmem {s : State} {i : Instr} (h : Ready s i) :
    s.afterThree.exmem =
      { instr := .word (encode i)
        branchTarget := s.pc + 1 + sext16 i.fC
        aluResult := (Slot.word (encode i)).alu (s.regs.read i.fA) (s.regs.read i.fB) (sext16 i.fC)
        storeData := s.regs.read i.fA } := by
  obtain ⟨-, -, -, inside, word⟩ := h
  have fetched : s.fetchSlot = .word (encode i) := by simp [State.fetchSlot, inside, word]
  have decoded : s.afterQuiet.afterQuiet.idex =
      { instr := .word (encode i), pcPlus1 := s.pc + 1, readRegA := s.regs.read i.fA, readRegB := s.regs.read i.fB
        offset := sext16 i.fC } := by
    simp [State.afterQuiet, fetched, decodeStage]
  rw [State.afterThree, afterQuiet_exmem, decoded]

/-- Three edges take a fetched instruction to EX/MEM, whatever it is. -/
theorem Ready.steps_three {s : State} {i : Instr} (h : Ready s i) : steps 3 s = .next s.afterThree := by
  obtain ⟨rst, run, drained, -, -⟩ := h
  simp only [State.drained, Bool.and_eq_true, decide_eq_true_eq] at drained
  obtain ⟨⟨⟨⟨ifid, idex⟩, exmem⟩, memwb⟩, wbend⟩ := drained
  have quiet0 : Quiet s := ⟨rst, run, exmem, memwb, wbend⟩
  have quiet1 : Quiet s.afterQuiet := quiet0.afterQuiet idex
  have quiet2 : Quiet s.afterQuiet.afterQuiet := quiet1.afterQuiet ((decodeStage_idex_instr ..).trans ifid)
  rw [steps_succ quiet0.step_eq, steps_succ quiet1.step_eq, steps_succ quiet2.step_eq]
  rfl

end Sys2Proof.Machine
end

section
/-! The last two cycles of an instruction that makes no access and does not branch: it passes through MEMORY while its
follower's address is formed, and is written back while the follower's access happens or faults (R146, R150). -/

namespace Sys2Proof.Machine

/-- `v` is `s` with an older instruction in MEM/WB, whose writeback will leave `regs`, and its follower in EX/MEM, whose
address, should it make an access, has its base in `regs`. -/
structure WritesBackNext (regs : RegFile) (s v : State) : Prop where
  cycleRuns : v.cycleRuns = true
  writeback : v.regs.writeDest v.memwb.instr.dest v.memwb.writeData = regs
  regs_eq : v.regs = s.regs
  dmem_eq : v.dmem = s.dmem
  cycles_eq : v.cycles = s.cycles + 4
  follower : v.exmem.instr = followerSlot s
  address : ∀ w, followerSlot s = .word w → (opOf w = 2#10 ∨ opOf w = 3#10) →
    v.exmem.aluResult = accessAddress regs w

/-- The fifth edge completes the instruction, or the follower faults in it and nothing of the cycle is committed (R302). -/
theorem WritesBackNext.completesWith {regs : RegFile} {s v : State} (h : WritesBackNext regs s v)
    (four : steps 4 s = .next v) : CompletesWith regs s := by
  cases faults : v.memFaults with
  | true =>
    obtain ⟨w, hw, hop, hstep⟩ := step_memFaults h.cycleRuns faults
    have slot : followerSlot s = .word w := h.follower.symm.trans hw
    have op : opOf w = 2#10 ∨ opOf w = 3#10 := hop.imp (isOpcode_iff ..).1 (isOpcode_iff ..).1
    have address := h.address w slot op
    have outside : inRange (accessAddress regs w) = false := by
      simp only [State.memFaults, Bool.and_eq_true, Bool.not_eq_true', address] at faults
      obtain ⟨-, outside⟩ := faults
      exact outside
    refine ⟨_, steps_then four hstep, fun inside => ?_, fun _ => h.dmem_eq, fun running => ?_, fun _ =>
      ⟨rfl, h.regs_eq, h.dmem_eq, h.cycles_eq, w, slot, op, outside, ?_⟩⟩
    · exact absurd (inside w slot op) (by simp [outside])
    · exact nomatch running
    · rw [State.raiseFatal, address, h.cycles_eq]
  | false =>
    have commits : v.commits = true := by simp [State.commits, h.cycleRuns, faults]
    obtain ⟨-, running, -⟩ := (cycleRuns_iff v).1 h.cycleRuns
    refine ⟨_, steps_then four (step_commits commits), fun _ => running, fun noStore => ?_, fun _ =>
      ⟨h.writeback, ?_⟩, fun stopped => absurd running stopped⟩
    · rw [← h.follower] at noStore
      simp [State.afterCycle, State.memAfter, noStore, h.dmem_eq]
    · change v.cycles + 1 = s.cycles + 5
      rw [h.cycles_eq]
      ac_rfl

theorem executeStage_exmem_instr {s : State} (stall : s.stall = false) (alu : Word → Word → Word → Word) :
    (executeStage s.idex.instr alu s).exmem.instr = s.idex.instr := by
  rw [State.stall] at stall
  simp [executeStage, stall]

/-- With a follower that makes no access, the instruction does complete. -/
theorem CompletesWith.after_read {regs : RegFile} {s : State} (h : CompletesWith regs s) {w : Word} {r : RegIdx} {v : Word}
    (follower : followerSlot s = .word w) (noAccess : ¬ (opOf w = 2#10 ∨ opOf w = 3#10)) (read : regs.read r = v) :
    After 5 s fun t => t.regs.read r = v := by
  obtain ⟨t, five, runs, -, completed, -⟩ := h
  have running : t.run = .running := runs fun x slot access => by
    cases follower.symm.trans slot
    exact absurd access noAccess
  obtain ⟨regs_eq, -⟩ := completed running
  exact ⟨t, five, (congrArg (RegFile.read · r) regs_eq).trans read⟩

/-- The address that an LW or SW in ID/EX forms: base plus offset, the base forwarded (R140, R224). -/
theorem executeStage_access {s : State} {w : Word} (stall : s.stall = false) (slot : s.idex.instr = .word w)
    (op : opOf w = 2#10 ∨ opOf w = 3#10) :
    (executeStage s.idex.instr s.idex.instr.alu s).exmem.aluResult =
      effectiveAddress (s.fwd (fBOf w) s.idex.readRegB) s.idex.offset := by
  have alu : (Slot.word w).alu = aluAddress := by
    rcases op with op | op
    · simp [Slot.alu, decode_of_op2 op, aluOf]
    · simp [Slot.alu, decode_of_op3 op, aluOf]
  rw [State.stall, slot] at stall
  simp [executeStage, stall, slot, alu, aluAddress, State.operandB, State.operand, Slot.fieldB]

/-- The fourth edge of an instruction that is no LW, SW or BEQ is an ordinary cycle. -/
theorem Ready.afterThree_ordinary {s : State} {i : Instr} (h : Ready s i) (op : i.opcode ∉ [2#10, 3#10, 4#10]) :
    s.afterThree.commits = true ∧ s.afterThree.stall = false ∧ s.afterThree.taken = false := by
  have exmem := h.afterThree_exmem
  obtain ⟨rst, run, -⟩ := h
  simp only [List.mem_cons, List.not_mem_nil, or_false, not_or] at op
  obtain ⟨noLw, noSw, noBeq⟩ := op
  have isLw : s.afterThree.exmem.instr.isLw = false := by simp [exmem, Slot.isLw, isOpcode, noLw]
  have isSw : s.afterThree.exmem.instr.isSw = false := by simp [exmem, Slot.isSw, isOpcode, noSw]
  have isBeq : s.afterThree.exmem.instr.isBeq = false := by simp [exmem, Slot.isBeq, isOpcode, noBeq]
  exact ⟨commits_of_no_access rst run rfl isLw isSw, stall_of_not_lw isLw, taken_of_not_beq isBeq⟩

/-- Four edges take an instruction that is no LW, SW, BEQ or HALT to MEM/WB, with its ALU value for its destination. -/
theorem Ready.writesBackNext {s : State} {i : Instr} (h : Ready s i) (roundTrip : decode (encode i) = i)
    (op : i.opcode ∉ [2#10, 3#10, 4#10]) (noHalt : i.opcode ≠ 6#10) :
    WritesBackNext (s.regs.writeDest (destOf i) (aluOf i (s.regs.read i.fA) (s.regs.read i.fB) (sext16 i.fC))) s
      s.afterThree.afterCycle := by
  obtain ⟨-, stall, taken⟩ := h.afterThree_ordinary op
  have exmem := h.afterThree_exmem
  have dest : (Slot.word (encode i)).dest = destOf i := by rw [Slot.dest, roundTrip]
  have alu : (Slot.word (encode i)).alu = aluOf i := by rw [Slot.alu, roundTrip]
  obtain ⟨rst, run, -⟩ := h
  simp only [List.mem_cons, List.not_mem_nil, or_false, not_or] at op
  obtain ⟨noLw, noSw, -⟩ := op
  have memwb : s.afterThree.afterCycle.memwb = { instr := .word (encode i), writeData := s.afterThree.exmem.aluResult } := by
    simp [State.afterCycle, State.memValue, exmem, Slot.isLw, isOpcode, noLw]
  have younger : s.afterThree.afterCycle.exmem =
      (executeStage s.afterThree.idex.instr s.afterThree.idex.instr.alu s.afterThree).exmem := by
    simp [State.afterCycle, taken]
  have regs_eq : s.afterThree.afterCycle.regs = s.regs := by simp [State.afterCycle]
  refine
    { cycleRuns := ?_, writeback := ?_, regs_eq := regs_eq, dmem_eq := ?_, cycles_eq := ?_, follower := ?_,
      address := fun w slot access => ?_ }
  · rw [cycleRuns_iff, memwb]
    exact ⟨rst, run, by simp [Slot.isHalt, isOpcode, noHalt], rfl⟩
  · rw [regs_eq, memwb, exmem, dest, alu]
  · simp [State.afterCycle, State.memAfter, exmem, Slot.isSw, isOpcode, noSw]
  · change s.afterThree.cycles + 1 = s.cycles + 4
    rw [afterThree_cycles]
    ac_rfl
  · rw [younger, executeStage_exmem_instr stall, afterThree_idex_instr]
  · obtain ⟨base, offset⟩ := afterThree_idex_of_follower s slot
    rw [younger, executeStage_access stall ((afterThree_idex_instr s).trans slot) access, base, offset,
      fwd_eq_read_writeDest rfl rfl, exmem, dest, alu, accessAddress]

theorem Ready.completesWith {s : State} {i : Instr} (h : Ready s i) (roundTrip : decode (encode i) = i)
    (op : i.opcode ∉ [2#10, 3#10, 4#10]) (noHalt : i.opcode ≠ 6#10) :
    CompletesWith (s.regs.writeDest (destOf i) (aluOf i (s.regs.read i.fA) (s.regs.read i.fB) (sext16 i.fC))) s := by
  obtain ⟨commits, -, -⟩ := h.afterThree_ordinary op
  exact (h.writesBackNext roundTrip op noHalt).completesWith (steps_then h.steps_three (step_commits commits))

end Sys2Proof.Machine
end

section
/-! What `exec` does with an instruction in each of its turns, for every instruction that its word decodes back to. -/

namespace Sys2Proof.Machine

/-- The registers whose load stalls a slot are its sources (R138). -/
theorem stallFor_iff (s : State) (slot : Slot) :
    s.stallFor slot = true ↔
      s.exmem.instr.isLw = true ∧ ∃ r ∈ slot.srcs s.params, s.exmem.instr.fieldA = some r := by
  cases lw : s.exmem.instr.isLw with
  | false => simp [State.stallFor, lw]
  | true =>
    rw [State.stallFor, lw, dest_of_isLw lw]
    cases s.exmem.instr.fieldA <;> simp

/-- An instruction that reads both its register fields has the same sources under either reading of R112. -/
theorem srcsOf_of_usedSrcs {i : Instr} (h : usedSrcs i = [i.fA, i.fB]) (p : Config.Params) :
    srcsOf p i = [i.fA, i.fB] := by
  unfold srcsOf
  cases p.stallSources with
  | used => exact h
  | fields => rfl

section
variable {i : Instr} (roundTrip : decode (encode i) = i) {s : State}
include roundTrip

theorem exec_of_exec_decode {r : Result} (h : exec (decode (encode i)) s = r) : exec i s = r := by rwa [roundTrip] at h

theorem fetchedAndDecoded : FetchedAndDecoded i s :=
  ⟨fun fetchTurn => exec_of_exec_decode roundTrip (exec_fetch fetchTurn), fun decodeTurn =>
    exec_of_exec_decode roundTrip ((exec_decode decodeTurn).trans (by simp [decodeStage]))⟩

theorem executedWith_aluOf : ExecutedWith (aluOf i) i s := by
  intro execute
  have turn := exec_of_exec_decode roundTrip (exec_execute execute)
  rw [Slot.alu, roundTrip] at turn
  constructor
  · intro noStall
    simp [turn, executeStage, noStall, State.operandA, State.operandB, State.operand, Slot.fieldA, Slot.fieldB]
  · intro stall
    rw [turn, executeStage, if_pos stall, stallAction]

theorem passesMemory (op : i.opcode ∉ [2#10, 3#10, 4#10]) : PassesMemory i s := by
  intro memory
  simp only [List.mem_cons, List.not_mem_nil, or_false, not_or] at op
  obtain ⟨noLw, noSw, noBeq⟩ := op
  apply exec_of_exec_decode roundTrip
  simp [exec_memory memory, memorySlot, isOpcode, noLw, noSw, noBeq, memoryPass, toMemwb]

theorem writesBack {r : RegIdx} (dest : destOf i = some r) : WritesBack r i s := by
  intro writeback
  apply exec_of_exec_decode roundTrip
  rw [exec_writeback writeback, Slot.dest, roundTrip, dest]
  rfl

theorem passesClock (noHalt : i.opcode ≠ 6#10) : PassesClock i s := by
  intro clock
  apply exec_of_exec_decode roundTrip
  simp [exec_clock clock, isOpcode, noHalt]

theorem stallsOn {rs : List RegIdx} (srcs : srcsOf s.params i = rs) : StallsOn rs i s := by
  rw [StallsOn, stallFor_iff, Slot.srcs, roundTrip, srcs]

/-- Every turn of an instruction that only computes a register from its two register fields. -/
theorem registerInstruction_turns {r : RegIdx} (op : i.opcode ∉ [2#10, 3#10, 4#10]) (noHalt : i.opcode ≠ 6#10)
    (dest : destOf i = some r) (srcs : usedSrcs i = [i.fA, i.fB]) :
    FetchedAndDecoded i s ∧ ExecutedWith (aluOf i) i s ∧ PassesMemory i s ∧ WritesBack r i s ∧ PassesClock i s ∧
      StallsOn [i.fA, i.fB] i s :=
  ⟨fetchedAndDecoded roundTrip, executedWith_aluOf roundTrip, passesMemory roundTrip op, writesBack roundTrip dest,
    passesClock roundTrip noHalt, stallsOn roundTrip (srcsOf_of_usedSrcs srcs _)⟩

end

end Sys2Proof.Machine
end

section
/-! ADD and NAND (41_alu.md R200, R202). -/

namespace Sys2Proof

open Sys2Proof.Machine

theorem decode_encode_add (fA fB : RegIdx) (fC : CField) : decode (encode (.add fA fB fC)) = .add fA fB fC := by
  rw [decode_of_op0 (opOf_encode _), fAOf_encode, fBOf_encode, fCOf_encode]
  rfl

theorem decode_encode_nand (fA fB : RegIdx) (fC : CField) : decode (encode (.nand fA fB fC)) = .nand fA fB fC := by
  rw [decode_of_op1 (opOf_encode _), fAOf_encode, fBOf_encode, fCOf_encode]
  rfl

/-- Settles O51: the instruction passes through a quiet pipeline, and the follower's access comes with its writeback. -/
theorem aluInstructionCompletesInFiveCycles : Obligations.AluInstructionCompletesInFiveCycles :=
  fun _ fA fB fC =>
    ⟨fun ready => ready.completesWith (decode_encode_add fA fB fC) (by simp [Instr.opcode]) (by simp [Instr.opcode]),
      fun ready => ready.completesWith (decode_encode_nand fA fB fC) (by simp [Instr.opcode]) (by simp [Instr.opcode])⟩

theorem encode_add (fA fB : RegIdx) (fC : CField) :
    encode (.add fA fB fC) = (fA.setWidth 32 <<< 19 ||| fB.setWidth 32 <<< 16 ||| fC.setWidth 32) := by
  simp [encode, joinFields, zext, Instr.opcode, Instr.fA, Instr.fB, Instr.fC]

theorem encode_nand (fA fB : RegIdx) (fC : CField) :
    encode (.nand fA fB fC) =
      (0x00400000 ||| fA.setWidth 32 <<< 19 ||| fB.setWidth 32 <<< 16 ||| fC.setWidth 32) := by
  simp [encode, joinFields, zext, Instr.opcode, Instr.fA, Instr.fB, Instr.fC]

/-- R200's example: `add r3, r1, r2` of 5 and 7, with a HALT behind it. -/
theorem add_example : After 5 (bootWith [0x000A0003, 0x01800000] 5 7) fun t => t.regs.read 3 = 12 := by
  have ready : Ready (bootWith [0x000A0003, 0x01800000] 5 7) (.add 1 2 3) := by unfold Ready; decide
  exact ((aluInstructionCompletesInFiveCycles _ 1 2 3).1 ready).after_read (w := 0x01800000) (by decide) (by decide)
    (by decide)

/-- R202's example: `nand r3, r1, r2` with a HALT behind it. -/
theorem nand_example :
    After 5 (bootWith [0x004A0003, 0x01800000] 0x0F0F0F0F 0x00FF00FF) fun t => t.regs.read 3 = 0xFFF0FFF0 := by
  have ready : Ready (bootWith [0x004A0003, 0x01800000] 0x0F0F0F0F 0x00FF00FF) (.nand 1 2 3) := by unfold Ready; decide
  exact ((aluInstructionCompletesInFiveCycles _ 1 2 3).2 ready).after_read (w := 0x01800000) (by decide) (by decide)
    (by decide)

/-- Settles O10: ADD's turns are those of a register instruction, and the example completes behind a drained pipeline. -/
theorem addEffect : Obligations.AddEffect :=
  ⟨fun fA fB fC _ => ⟨encode_add fA fB fC,
      registerInstruction_turns (decode_encode_add fA fB fC) (by simp [Instr.opcode]) (by simp [Instr.opcode]) rfl rfl⟩,
    by decide, add_example⟩

/-- Settles O11: NAND's turns are those of a register instruction, and the example completes behind a drained pipeline. -/
theorem nandEffect : Obligations.NandEffect :=
  ⟨fun fA fB fC _ => ⟨encode_nand fA fB fC,
      registerInstruction_turns (decode_encode_nand fA fB fC) (by simp [Instr.opcode]) (by simp [Instr.opcode]) rfl rfl⟩,
    by decide, nand_example⟩

end Sys2Proof
end

section
/-! The address range (42_loadstore.md R224): the wrap modulo 2^32 brings no sum of base and offset into it. -/

namespace Sys2Proof

open Sys2Proof.Machine

/-- The offset is small beside the signed range of a base. -/
theorem toInt_sext16_bounds (c : CField) : -65536 ≤ (sext16 c).toInt ∧ (sext16 c).toInt < 65536 := by
  have width : c.toNat < 65536 := c.isLt
  rw [toInt_sext16]
  split <;> omega

/-- A sum that leaves the signed range by less than 65536 wraps to a number that is far from the addresses. -/
theorem bmod_in_addresses_iff {v : Int} (lo : -2 ^ 31 - 65536 ≤ v) (hi : v < 2 ^ 31 + 65536) :
    (0 ≤ v.bmod (2 ^ 32) ∧ v.bmod (2 ^ 32) < 65536) ↔ (0 ≤ v ∧ v < 65536) := by
  rw [Int.bmod_def]
  split <;> omega

/-- Settles O25: the sum leaves the signed range by less than 65536, so its wrap is no address. -/
theorem addressInRangeExactlyWhenTheSumIs : Obligations.AddressInRangeExactlyWhenTheSumIs := by
  intro base c
  have offset := toInt_sext16_bounds c
  have lo : -2 ^ 31 ≤ base.toInt := BitVec.le_toInt base
  have hi : base.toInt < 2 ^ 31 := BitVec.toInt_lt
  rw [inRange_iff_toInt, effectiveAddress, BitVec.toInt_add]
  exact bmod_in_addresses_iff (by omega) (by omega)

end Sys2Proof
end

section
/-! LW and SW from a drained pipeline (42_loadstore.md R220, R222; 40_pipeline.md R157): three quiet cycles bring the access to
MEMORY with its address, and an access in range commits the fourth. -/

namespace Sys2Proof.Machine

/-- LW and SW add base and offset (R140, R224). -/
theorem alu_of_access {w : Word} (op : opOf w = 2#10 ∨ opOf w = 3#10) : (Slot.word w).alu = aluAddress := by
  rcases op with op | op
  · simp [Slot.alu, decode_of_op2 op, aluOf]
  · simp [Slot.alu, decode_of_op3 op, aluOf]

/-- A cycle with a bubble in MEM/WB and an address in range in EX/MEM commits, whatever is there (R146). -/
theorem commits_of_inRange {s : State} (rst : s.rst = false) (run : s.run = .running) (memwb : s.memwb.instr = .bubble)
    (inside : inRange s.exmem.aluResult = true) : s.commits = true := by
  simp [State.commits, State.cycleRuns, State.memFaults, inside, rst, run, memwb]

@[simp] theorem afterCycle_memwb (s : State) :
    s.afterCycle.memwb = { instr := s.exmem.instr, writeData := s.memValue } := rfl

@[simp] theorem afterCycle_dmem (s : State) : s.afterCycle.dmem = s.memAfter := rfl

/-- The fourth edge writes no register: a bubble is in MEM/WB. -/
@[simp] theorem afterThree_afterCycle_regs (s : State) : s.afterThree.afterCycle.regs = s.regs := by simp [State.afterCycle]

@[simp] theorem afterThree_afterCycle_cycles (s : State) : s.afterThree.afterCycle.cycles = s.cycles + 4 := by
  change s.afterThree.cycles + 1 = s.cycles + 4
  rw [afterThree_cycles]
  ac_rfl

section
variable {s : State} {i : Instr} (h : Ready s i) (access : i.opcode = 2#10 ∨ i.opcode = 3#10)
include h access

/-- EX/MEM after three edges: the address of the registers as they were, and SW's data. -/
theorem Ready.afterThree_exmem_access :
    s.afterThree.exmem =
      { instr := .word (encode i)
        branchTarget := s.pc + 1 + sext16 i.fC
        aluResult := effectiveAddress (s.regs.read i.fB) (sext16 i.fC)
        storeData := s.regs.read i.fA } := by
  rw [h.afterThree_exmem, alu_of_access (by rwa [opOf_encode]), aluAddress]

theorem Ready.steps_four_access (inside : inRange (effectiveAddress (s.regs.read i.fB) (sext16 i.fC)) = true) :
    steps 4 s = .next s.afterThree.afterCycle := by
  have exmem := h.afterThree_exmem_access access
  have three := h.steps_three
  obtain ⟨rst, run, -⟩ := h
  exact steps_then three (step_commits (commits_of_inRange rst run rfl (by rw [exmem]; exact inside)))

end

/-- A stall cycle puts a bubble into EX/MEM (R141). -/
theorem afterCycle_exmem_instr_of_stall {s : State} (stall : s.stall = true) :
    s.afterCycle.exmem.instr = .bubble := by
  simp only [State.afterCycle, executeStage_exmem_stall _ stall, not_taken_of_stall stall, Bool.false_eq_true, if_false]
  rfl

/-- `v` is `s` with an older instruction in MEM/WB, whose writeback will leave `regs`; nothing is said of its followers. -/
structure InMemWb (regs : RegFile) (s v : State) : Prop where
  cycleRuns : v.cycleRuns = true
  writeback : v.regs.writeDest v.memwb.instr.dest v.memwb.writeData = regs
  regs_eq : v.regs = s.regs
  dmem_eq : v.dmem = s.dmem
  cycles_eq : v.cycles = s.cycles + 4

/-- A load-use stall leaves a bubble behind the load: nothing faults in the fifth cycle, and the load completes. -/
theorem InMemWb.completesWith_of_bubble {regs : RegFile} {s v : State} (h : InMemWb regs s v)
    (bubble : v.exmem.instr = .bubble) (four : steps 4 s = .next v) : CompletesWith regs s := by
  obtain ⟨-, running, -⟩ := (cycleRuns_iff v).1 h.cycleRuns
  have noFault : v.memFaults = false := memFaults_of_no_access (by rw [bubble, bubble_isLw]) (by rw [bubble, bubble_isSw])
  have commits : v.commits = true := by simp [State.commits, h.cycleRuns, noFault]
  refine ⟨_, steps_then four (step_commits commits), fun _ => running, fun _ => ?_, fun _ => ⟨h.writeback, ?_⟩,
    fun stopped => absurd running stopped⟩
  · simp [State.memAfter, bubble, h.dmem_eq]
  · change v.cycles + 1 = s.cycles + 5
    rw [h.cycles_eq]
    ac_rfl

/-- An LW or SW reads its base register, under either reading of R112. -/
theorem fBOf_mem_srcs_of_access {w : Word} (op : opOf w = 2#10 ∨ opOf w = 3#10) (p : Config.Params) :
    fBOf w ∈ (Slot.word w).srcs p := by
  have used : fBOf w ∈ usedSrcs (decode w) := by
    rcases op with op | op
    · simp [decode_of_op2 op, usedSrcs]
    · simp [decode_of_op3 op, usedSrcs]
  rw [Slot.srcs, srcsOf]
  cases p.stallSources with
  | used => exact used
  | fields => simp

/-- Where no stall holds the front, the base of an access in ID/EX is not the register being loaded (R138). -/
theorem base_ne_loaded {s : State} {w : Word} {r : RegIdx} (noStall : s.stall = false) (slot : s.idex.instr = .word w)
    (op : opOf w = 2#10 ∨ opOf w = 3#10) (lw : s.exmem.instr.isLw = true) (loaded : s.exmem.instr.fieldA = some r) :
    r ≠ fBOf w := by
  rintro rfl
  have stall : s.stall = true := by
    rw [State.stall, stallFor_iff, slot]
    exact ⟨lw, fBOf w, fBOf_mem_srcs_of_access op _, loaded⟩
  exact absurd stall (by simp [noStall])

/-- The registers that an LW leaves, its address formed from those of `s` (R220). -/
def loadedRegs (s : State) (fA fB : RegIdx) (fC : CField) : RegFile :=
  s.regs.write fA (s.dmemRead (effectiveAddress (s.regs.read fB) (sext16 fC)))

theorem loadedRegs_read_other (s : State) {fA fB r : RegIdx} {fC : CField} (ne : fA ≠ r) :
    (loadedRegs s fA fB fC).read r = s.regs.read r :=
  RegFile.read_write_other _ _ ne

section
variable {s : State} {fA fB : RegIdx} {fC : CField} (h : Ready s (.lw fA fB fC))
include h

/-- The fourth edge takes the LW to MEM/WB with the word loaded. -/
theorem Ready.inMemWb_of_lw : InMemWb (loadedRegs s fA fB fC) s s.afterThree.afterCycle := by
  have exmem := h.afterThree_exmem_access (.inl rfl)
  have isLw : (Slot.word (encode (.lw fA fB fC))).isLw = true := by simp [Slot.isLw, isOpcode, Instr.opcode]
  have isSw : (Slot.word (encode (.lw fA fB fC))).isSw = false := by simp [Slot.isSw, isOpcode, Instr.opcode]
  obtain ⟨rst, run, -⟩ := h
  refine
    { cycleRuns := ?_, writeback := ?_, regs_eq := afterThree_afterCycle_regs s, dmem_eq := ?_
      cycles_eq := afterThree_afterCycle_cycles s }
  · rw [cycleRuns_iff, afterCycle_memwb, exmem]
    exact ⟨rst, run, by simp [Slot.isHalt, isOpcode, Instr.opcode], rfl⟩
  · simp [State.memValue, exmem, isLw, dest_of_isLw isLw, Slot.fieldA, Instr.fA, Instr.fB, Instr.fC, State.dmemRead,
      loadedRegs]
  · simp [State.memAfter, exmem, isSw]

/-- Without a stall the follower forms its address from a base that the load does not change. -/
theorem Ready.writesBackNext_of_lw (noStall : s.afterThree.stall = false) :
    WritesBackNext (loadedRegs s fA fB fC) s s.afterThree.afterCycle := by
  have exmem := h.afterThree_exmem_access (.inl rfl)
  have isLw : s.afterThree.exmem.instr.isLw = true := by simp [exmem, Slot.isLw, isOpcode, Instr.opcode]
  have fieldA : s.afterThree.exmem.instr.fieldA = some fA := by simp [exmem, Slot.fieldA, Instr.fA]
  have notTaken : s.afterThree.taken = false :=
    taken_of_not_beq (by simp [exmem, Slot.isBeq, isOpcode, Instr.opcode])
  have younger : s.afterThree.afterCycle.exmem =
      (executeStage s.afterThree.idex.instr s.afterThree.idex.instr.alu s.afterThree).exmem := by
    simp [State.afterCycle, notTaken]
  refine { h.inMemWb_of_lw with follower := ?_, address := fun w slot access => ?_ }
  · rw [younger, executeStage_exmem_instr noStall, afterThree_idex_instr]
  · have idex : s.afterThree.idex.instr = .word w := (afterThree_idex_instr s).trans slot
    have ne : fA ≠ fBOf w := base_ne_loaded noStall idex access isLw fieldA
    obtain ⟨base, offset⟩ := afterThree_idex_of_follower s slot
    rw [younger, executeStage_access noStall idex access, base, offset, fwd_eq_read_writeDest rfl rfl, dest_of_isLw isLw,
      fieldA, RegFile.writeDest_some, RegFile.read_write_other _ _ ne, accessAddress, loadedRegs_read_other s ne]

theorem Ready.completesWith_of_lw (inside : inRange (effectiveAddress (s.regs.read fB) (sext16 fC)) = true) :
    CompletesWith (loadedRegs s fA fB fC) s := by
  have four := h.steps_four_access (.inl rfl) inside
  cases stall : s.afterThree.stall with
  | false => exact (h.writesBackNext_of_lw stall).completesWith four
  | true => exact h.inMemWb_of_lw.completesWith_of_bubble (afterCycle_exmem_instr_of_stall stall) four

end

end Sys2Proof.Machine
end

section
/-! What `exec` does with an LW or SW in MEMORY (20_memory.md R80; 40_pipeline.md R145, R146), and with an instruction that
writes no register in WRITEBACK (R150). -/

namespace Sys2Proof.Machine

section
variable {i : Instr} (roundTrip : decode (encode i) = i) {s : State}
include roundTrip

theorem exec_memory_of_lw (op : i.opcode = 2#10) (memory : s.stage = .memory) :
    exec i s = .next (memoryLoad (encode i) s) := by
  apply exec_of_exec_decode roundTrip
  simp [exec_memory memory, memorySlot, isOpcode, op]

theorem exec_memory_of_sw (op : i.opcode = 3#10) (memory : s.stage = .memory) :
    exec i s = .next (memoryStore (encode i) s) := by
  apply exec_of_exec_decode roundTrip
  simp [exec_memory memory, memorySlot, isOpcode, op]

theorem writesNoRegister (dest : destOf i = none) : WritesNoRegister i s := by
  intro writeback
  apply exec_of_exec_decode roundTrip
  rw [exec_writeback writeback, Slot.dest, roundTrip, dest]
  rfl

end

/-- Behind the LW in EX/MEM, the core stalls exactly where the occupant of ID/EX has the LW's `fA` as a source (R138). -/
theorem stall_iff_of_lw {s : State} {fA fB : RegIdx} {fC : CField}
    (lw : s.exmem.instr = .word (encode (.lw fA fB fC))) :
    s.stall = true ↔ fA ∈ s.idex.instr.srcs s.params := by
  have isLw : (Slot.word (encode (.lw fA fB fC))).isLw = true := by simp [Slot.isLw, isOpcode, Instr.opcode]
  rw [State.stall, stallFor_iff, lw]
  simp [isLw, Slot.fieldA, Instr.fA]

end Sys2Proof.Machine
end

section
/-! LW and SW (42_loadstore.md R220, R222). -/

namespace Sys2Proof

open Sys2Proof.Machine

theorem decode_encode_lw (fA fB : RegIdx) (fC : CField) : decode (encode (.lw fA fB fC)) = .lw fA fB fC := by
  rw [decode_of_op2 (opOf_encode _), fAOf_encode, fBOf_encode, fCOf_encode]
  rfl

theorem decode_encode_sw (fA fB : RegIdx) (fC : CField) : decode (encode (.sw fA fB fC)) = .sw fA fB fC := by
  rw [decode_of_op3 (opOf_encode _), fAOf_encode, fBOf_encode, fCOf_encode]
  rfl

theorem encode_lw (fA fB : RegIdx) (fC : CField) :
    encode (.lw fA fB fC) = (0x00800000 ||| fA.setWidth 32 <<< 19 ||| fB.setWidth 32 <<< 16 ||| fC.setWidth 32) := by
  simp [encode, joinFields, zext, Instr.opcode, Instr.fA, Instr.fB, Instr.fC]

theorem encode_sw (fA fB : RegIdx) (fC : CField) :
    encode (.sw fA fB fC) = (0x00C00000 ||| fA.setWidth 32 <<< 19 ||| fB.setWidth 32 <<< 16 ||| fC.setWidth 32) := by
  simp [encode, joinFields, zext, Instr.opcode, Instr.fA, Instr.fB, Instr.fC]

/-- Settles O52: behind the load a stall leaves a bubble, and without one the follower's base is not the loaded register. -/
theorem loadCompletesInFiveCycles : Obligations.LoadCompletesInFiveCycles :=
  fun _ _ _ _ ready inside => ready.completesWith_of_lw inside

/-- Settles O53: the fourth edge commits the store, with a bubble in writeback. -/
theorem storeCompletesInFourCycles : Obligations.StoreCompletesInFourCycles := by
  intro s fA fB fC ready inside
  have isSw : (Slot.word (encode (.sw fA fB fC))).isSw = true := by simp [Slot.isSw, isOpcode, Instr.opcode]
  refine ⟨_, ready.steps_four_access (.inr rfl) inside, ?_, afterThree_afterCycle_regs s, afterThree_afterCycle_cycles s⟩
  simp [State.memAfter, ready.afterThree_exmem_access (.inr rfl), isSw, Instr.fA, Instr.fB, Instr.fC]

/-- R220's example: `lw r1, 8(r0)` of the word 5, with a HALT behind it. -/
theorem lw_example : After 5 (bootWith [0x00880008, 0x01800000, 0, 0, 0, 0, 0, 0, 5] 0 0) fun t => t.regs.read 1 = 5 := by
  have ready : Ready (bootWith [0x00880008, 0x01800000, 0, 0, 0, 0, 0, 0, 5] 0 0) (.lw 1 0 8) := by unfold Ready; decide
  exact (loadCompletesInFiveCycles _ 1 0 8 ready (by decide)).after_read (w := 0x01800000) (by decide) (by decide)
    (by decide)

/-- R222's example: `sw r4, 10(r0)` of -13, with a HALT behind it. -/
theorem sw_example :
    After 4 { State.boot [0x00E0000A, 0x01800000] with regs := State.reset.regs.write 4 (-13) } fun t =>
      Memory.read t.dmem 10 = -13 := by
  have ready : Ready { State.boot [0x00E0000A, 0x01800000] with regs := State.reset.regs.write 4 (-13) } (.sw 4 0 10) := by
    unfold Ready; decide
  obtain ⟨t, four, dmem, -⟩ := storeCompletesInFourCycles _ 4 0 10 ready (by decide)
  exact ⟨t, four, (congrArg (Memory.read · 10) dmem).trans (by decide)⟩

/-- Settles O12: LW's turns are those of its opcode, its bounds check splits MEMORY, and the example completes. -/
theorem lwEffect : Obligations.LwEffect := by
  refine ⟨fun fA fB fC s => ?_, by decide, lw_example⟩
  have roundTrip := decode_encode_lw fA fB fC
  refine ⟨encode_lw fA fB fC, fetchedAndDecoded roundTrip, executedWith_aluOf roundTrip, fun memory lo hi => ?_,
    fun memory outside => ?_, writesBack roundTrip rfl, passesClock roundTrip (by simp [Instr.opcode]),
    fun used => stallsOn roundTrip (by rw [srcsOf, used]; rfl),
    fun fields => stallsOn roundTrip (by rw [srcsOf, fields]; rfl), stall_iff_of_lw⟩
  · have inside := (inRange_iff_toInt _).2 ⟨lo, hi⟩
    obtain ⟨-, loads⟩ := (memoryLoad_cases (encode (.lw fA fB fC)) s).resolve_right (by simp [inside])
    rw [exec_memory_of_lw roundTrip rfl memory, loads, State.dmemRead]
  · rw [← inRange_iff_toInt] at outside
    obtain ⟨-, faults⟩ := (memoryLoad_cases (encode (.lw fA fB fC)) s).resolve_left (by simp [outside])
    rw [exec_memory_of_lw roundTrip rfl memory, faults, State.raiseFatal]

/-- Settles O13: SW's turns are those of its opcode, its bounds check splits MEMORY, and the example completes. -/
theorem swEffect : Obligations.SwEffect := by
  refine ⟨fun fA fB fC s => ?_, by decide, sw_example⟩
  have roundTrip := decode_encode_sw fA fB fC
  refine ⟨encode_sw fA fB fC, fetchedAndDecoded roundTrip, executedWith_aluOf roundTrip, fun memory lo hi => ?_,
    fun memory outside => ?_, writesNoRegister roundTrip rfl, passesClock roundTrip (by simp [Instr.opcode]),
    stallsOn roundTrip (srcsOf_of_usedSrcs rfl _)⟩
  · have inside := (inRange_iff_toInt _).2 ⟨lo, hi⟩
    obtain ⟨-, stores⟩ := (memoryStore_cases (encode (.sw fA fB fC)) s).resolve_right (by simp [inside])
    rw [exec_memory_of_sw roundTrip rfl memory, stores]
  · rw [← inRange_iff_toInt] at outside
    obtain ⟨-, faults⟩ := (memoryStore_cases (encode (.sw fA fB fC)) s).resolve_left (by simp [outside])
    rw [exec_memory_of_sw roundTrip rfl memory, faults, State.raiseFatal]

end Sys2Proof
end

section
/-! Decoding an assembled word (30_encoding.md R106, R107): a "data" opcode is 8 or more and has one highest set bit, so the
opcode map selects one row for it. -/

namespace Sys2Proof

open Sys2Proof.Machine

/-- The row of a "data" opcode is its binary logarithm. -/
theorem log2_of_topBitIs {op : OpField} {k : Nat} (h : topBitIs op k = true) : op.toNat.log2 = k := by
  simp only [topBitIs, beq_iff_eq] at h
  have pos : 0 < 2 ^ k := Nat.two_pow_pos k
  have lo : 2 ^ k ≤ op.toNat := (Nat.one_le_div_iff pos).1 h.ge
  have hi : op.toNat < 2 ^ (k + 1) := by
    rw [Nat.pow_succ']
    exact (Nat.div_lt_iff_lt_mul pos).1 (by omega)
  exact (Nat.log2_eq_iff (by omega)).2 ⟨lo, hi⟩

/-- An opcode has one highest set bit. -/
theorem topBitIs_other {op : OpField} {j k : Nat} (h : topBitIs op k = true) (ne : j ≠ k) : topBitIs op j = false := by
  cases other : topBitIs op j with
  | false => rfl
  | true => exact absurd ((log2_of_topBitIs other).symm.trans (log2_of_topBitIs h)) ne

/-- Opcodes from 8 on are those of the "data" rows (R249). -/
theorem ofFields_of_ge8 {op : OpField} (h : 8 ≤ op.toNat) (fA fB : RegIdx) (fC : CField) :
    ofFields op fA fB fC =
      if topBitIs op 9 then .data31 op fA fB fC
      else if topBitIs op 8 then .data30 op fA fB fC
      else if topBitIs op 7 then .data29 op fA fB fC
      else if topBitIs op 6 then .data28 op fA fB fC
      else if topBitIs op 5 then .data27 op fA fB fC
      else if topBitIs op 4 then .data26 op fA fB fC
      else .data25 op fA fB fC := by
  have ne : ∀ k : OpField, k.toNat < 8 → op ≠ k := by
    rintro k small rfl
    omega
  simp only [ofFields, ne 0#10 (by decide), ne 1#10 (by decide), ne 2#10 (by decide), ne 3#10 (by decide),
    ne 4#10 (by decide), ne 5#10 (by decide), ne 6#10 (by decide), ne 7#10 (by decide), if_false]

theorem decode_encode (i : Instr) : decode (encode i) = ofFields i.opcode i.fA i.fB i.fC := by
  simp [decode]

/-- No bit of a well-formed instruction is lost by encoding it: each row's condition selects that row again. -/
theorem decode_encode_of_wf {i : Instr} (wf : i.wf = true) : decode (encode i) = i := by
  rw [decode_encode]
  cases i with
  | add | nand | lw | sw | beq | jalr | halt | noop => rfl
  | data31 | data30 | data29 | data28 | data27 | data26 | data25 =>
    simp only [Instr.wf] at wf
    simp [Instr.opcode, Instr.fA, Instr.fB, Instr.fC, ofFields_of_ge8 (ge8_of_topBitIs (by decide) wf), wf,
      topBitIs_other wf]

theorem encode_beq (fA fB : RegIdx) (fC : CField) :
    encode (.beq fA fB fC) = (0x01000000 ||| fA.setWidth 32 <<< 19 ||| fB.setWidth 32 <<< 16 ||| fC.setWidth 32) := by
  simp [encode, joinFields, zext, Instr.opcode, Instr.fA, Instr.fB, Instr.fC]

theorem encode_jalr (fA fB : RegIdx) (fC : CField) :
    encode (.jalr fA fB fC) = (0x01400000 ||| fA.setWidth 32 <<< 19 ||| fB.setWidth 32 <<< 16 ||| fC.setWidth 32) := by
  simp [encode, joinFields, zext, Instr.opcode, Instr.fA, Instr.fB, Instr.fC]

theorem encode_halt (fA fB : RegIdx) (fC : CField) :
    encode (.halt fA fB fC) = (0x01800000 ||| fA.setWidth 32 <<< 19 ||| fB.setWidth 32 <<< 16 ||| fC.setWidth 32) := by
  simp [encode, joinFields, zext, Instr.opcode, Instr.fA, Instr.fB, Instr.fC]

theorem encode_noop (fA fB : RegIdx) (fC : CField) :
    encode (.noop fA fB fC) = (0x01C00000 ||| fA.setWidth 32 <<< 19 ||| fB.setWidth 32 <<< 16 ||| fC.setWidth 32) := by
  simp [encode, joinFields, zext, Instr.opcode, Instr.fA, Instr.fB, Instr.fC]

/-- The opcode fills the word's top bits (R101). -/
theorem toNat_opOf (w : Word) : (opOf w).toNat = w.toNat / 2 ^ 22 := by
  have width : w.toNat < 2 ^ 32 := w.isLt
  rw [opOf, toNat_extractLsb'_eq_div]
  omega

/-- R108: the words of the "data" rows. -/
theorem ge8_opOf_iff (w : Word) : 8 ≤ (opOf w).toNat ↔ w.toNat / 2 ^ 25 ≠ 0 := by
  rw [toNat_opOf]
  omega

theorem ge8_opOf_of_neg {w : Word} (neg : w.toInt < 0) : 8 ≤ (opOf w).toNat := by
  have top : 2 ^ 32 ≤ 2 * w.toNat := BitVec.toInt_neg_iff.1 neg
  rw [toNat_opOf]
  omega

end Sys2Proof
end

section
/-! What an edge that commits nothing keeps (40_pipeline.md R132, R133; 60_exceptions.md R302, R303). -/

namespace Sys2Proof.Machine

/-- Without reset, such an edge writes at most the run state and the fault record. -/
theorem step_of_not_commits {s : State} (rst : s.rst = false) (idle : s.commits = false) :
    ∃ run fault, step s = .next { s with run := run, fault := fault } := by
  rcases step_cases s with ⟨reset, -⟩ | ⟨-, -, stopped⟩ | ⟨-, -, -, halts⟩ | ⟨_, -, -, -, tag⟩ | ⟨_, -, -, -, -, bounds⟩ |
    ⟨commits, -⟩
  · exact absurd reset (by simp [rst])
  · exact ⟨_, _, stopped⟩
  · exact ⟨_, _, halts⟩
  · exact ⟨_, _, tag⟩
  · exact ⟨_, _, bounds⟩
  · exact absurd commits (by simp [idle])

end Sys2Proof.Machine
end

section
/-! JALR, HALT, NOOP and the unrecognized opcodes in their turns (43_control.md R243, R245, R247, R249): no destination, no
source, no ALU operation and no access. -/

namespace Sys2Proof.Machine

/-- The opcodes from 5 on read and write no register, and have no ALU operation (R111, R112, R140). -/
theorem no_effect_of_opcode_ge5 {i : Instr} (op : 5 ≤ i.opcode.toNat) :
    destOf i = none ∧ usedSrcs i = [] ∧ aluOf i = aluNone := by
  cases i with
  | add | nand | lw | sw | beq => exact absurd op (by simp [Instr.opcode])
  | jalr | halt | noop | data31 | data30 | data29 | data28 | data27 | data26 | data25 => exact ⟨rfl, rfl, rfl⟩

/-- The opcodes on which MEMORY acts are 2, 3 and 4 (R145 to R148). -/
theorem opcode_not_mem_of_ge5 {i : Instr} (op : 5 ≤ i.opcode.toNat) : i.opcode ∉ [2#10, 3#10, 4#10] := by
  intro acts
  simp only [List.mem_cons, List.not_mem_nil, or_false] at acts
  rcases acts with acts | acts | acts <;> simp [acts] at op

theorem mnemonic_of_ge8 {i : Instr} (op : 8 ≤ i.opcode.toNat) : i.mnemonic = "data" := by
  cases i with
  | add | nand | lw | sw | beq | jalr | halt | noop => exact absurd op (by simp [Instr.opcode])
  | data31 | data30 | data29 | data28 | data27 | data26 | data25 => rfl

section
variable {i : Instr} (roundTrip : decode (encode i) = i) {s : State}
include roundTrip

theorem flowsWithoutEffect (op : 5 ≤ i.opcode.toNat) : FlowsWithoutEffect i s := by
  obtain ⟨dest, srcs, alu⟩ := no_effect_of_opcode_ge5 op
  have executed : ExecutedWith (aluOf i) i s := executedWith_aluOf roundTrip
  rw [alu] at executed
  refine ⟨fetchedAndDecoded roundTrip, executed, passesMemory roundTrip (opcode_not_mem_of_ge5 op),
    writesNoRegister roundTrip dest, fun used => ?_, fun fields => stallsOn roundTrip (by rw [srcsOf, fields])⟩
  have noSource : srcsOf s.params i = [] := by rw [srcsOf, used, srcs]
  rw [← Bool.not_eq_true, stallFor_iff, Slot.srcs, roundTrip, noSource]
  simp

theorem exec_clock_of_halt (op : i.opcode = 6#10) (clock : s.stage = .clock) : exec i s = .next (haltClock s) := by
  apply exec_of_exec_decode roundTrip
  simp [exec_clock clock, isOpcode, op]

theorem exec_memory_of_beq (op : i.opcode = 4#10) (memory : s.stage = .memory) :
    exec i s = .next (memoryBranch (.word (encode i)) s) := by
  apply exec_of_exec_decode roundTrip
  simp [exec_memory memory, memorySlot, isOpcode, op]

end

end Sys2Proof.Machine
end

section
/-! BEQ and HALT from a drained pipeline (43_control.md R240, R245; 40_pipeline.md R157, R158): three quiet cycles bring the
instruction to MEMORY, which makes no access, so the fourth edge commits whatever follows. -/

namespace Sys2Proof.Machine

/-- The zero test of the wrapped difference is equality (R241). -/
theorem zeroTest_sub_iff (a b : Word) : zeroTest (a - b) = true ↔ a = b := by
  rw [zeroTest, beq_iff_eq, sub_eq_zero]

section
variable {s : State} {i : Instr} (h : Ready s i) (noAccess : i.opcode ∉ [2#10, 3#10])
include h noAccess

/-- What was fetched is no LW and no SW when it reaches EX/MEM. -/
theorem Ready.afterThree_no_access :
    s.afterThree.exmem.instr.isLw = false ∧ s.afterThree.exmem.instr.isSw = false := by
  simp only [List.mem_cons, List.not_mem_nil, or_false, not_or] at noAccess
  obtain ⟨noLw, noSw⟩ := noAccess
  rw [h.afterThree_exmem]
  simp [Slot.isLw, Slot.isSw, isOpcode, noLw, noSw]

theorem Ready.steps_four_no_access : steps 4 s = .next s.afterThree.afterCycle := by
  obtain ⟨isLw, isSw⟩ := h.afterThree_no_access noAccess
  have three := h.steps_three
  obtain ⟨rst, run, -⟩ := h
  exact steps_then three (step_commits (commits_of_no_access rst run rfl isLw isSw))

theorem Ready.dmem_four_no_access : s.afterThree.afterCycle.dmem = s.dmem := by
  obtain ⟨-, isSw⟩ := h.afterThree_no_access noAccess
  simp [State.memAfter, isSw]

end

section
variable {s : State} {fA fB : RegIdx} {fC : CField} (h : Ready s (.beq fA fB fC))
include h

/-- EX/MEM after three edges: the difference and the target (R140, R240). -/
theorem Ready.afterThree_exmem_beq :
    s.afterThree.exmem =
      { instr := .word (encode (.beq fA fB fC))
        branchTarget := s.pc + 1 + sext16 fC
        aluResult := s.regs.read fA - s.regs.read fB
        storeData := s.regs.read fA } := by
  have alu : (Slot.word (encode (.beq fA fB fC))).alu = fun a b _ => a - b := by
    rw [Slot.alu, decode_encode_of_wf rfl]
    rfl
  rw [h.afterThree_exmem, alu]
  rfl

theorem Ready.afterThree_isBeq : s.afterThree.exmem.instr.isBeq = true := by
  simp [h.afterThree_exmem_beq, Slot.isBeq, isOpcode, Instr.opcode]

/-- The branch is taken in the fourth cycle exactly where its registers are equal. -/
theorem Ready.afterThree_taken_iff : s.afterThree.taken = true ↔ s.regs.read fA = s.regs.read fB := by
  rw [State.taken, h.afterThree_isBeq, Bool.true_and, h.afterThree_exmem_beq, zeroTest_sub_iff]

theorem Ready.branch_taken (equal : s.regs.read fA = s.regs.read fB) :
    s.afterThree.afterCycle.pc = s.pc + 1 + sext16 fC ∧ s.afterThree.afterCycle.mispred = s.mispred + 1 ∧
      s.afterThree.afterCycle.ifid = .bubble ∧ s.afterThree.afterCycle.idex = .bubble ∧
      s.afterThree.afterCycle.exmem = .bubble := by
  have taken := h.afterThree_taken_iff.2 equal
  have mispred : s.afterThree.mispred = s.mispred := rfl
  simp [State.afterCycle, taken, h.afterThree_exmem_beq, mispred]

theorem Ready.branch_not_taken (differ : s.regs.read fA ≠ s.regs.read fB) :
    s.afterThree.afterCycle.pc = s.pc + 4 ∧ s.afterThree.afterCycle.notTaken = s.notTaken + 1 := by
  have taken : s.afterThree.taken = false := by rwa [← Bool.not_eq_true, h.afterThree_taken_iff]
  obtain ⟨isLw, -⟩ := h.afterThree_no_access (by simp [Instr.opcode])
  have sequential : s.afterThree.afterCycle.pc = s.afterThree.pc + 1 := by
    simp [State.afterCycle, taken, stall_of_not_lw isLw]
  have notTaken : s.afterThree.notTaken = s.notTaken := rfl
  constructor
  · rw [sequential]
    change s.pc + 1 + 1 + 1 + 1 = s.pc + 4
    ac_rfl
  · simp [State.afterCycle, taken, h.afterThree_isBeq, notTaken]

end

/-- The HALT is in MEM/WB after four edges, and the clock of the fifth finds it there (R132). -/
theorem Ready.steps_five_halt {s : State} {fA fB : RegIdx} {fC : CField} (h : Ready s (.halt fA fB fC)) :
    steps 5 s = .next (haltClock s.afterThree.afterCycle) := by
  have four := h.steps_four_no_access (by simp [Instr.opcode])
  have halt : s.afterThree.afterCycle.memwb.instr.isHalt = true := by
    simp [h.afterThree_exmem, Slot.isHalt, isOpcode, Instr.opcode]
  obtain ⟨rst, run, -⟩ := h
  exact steps_then four (step_halt rst run halt)

end Sys2Proof.Machine
end

section
/-! BEQ, JALR, HALT, NOOP and the unrecognized opcodes (43_control.md R240 to R249). -/

namespace Sys2Proof

open Sys2Proof.Machine

/-- Settles O36: an edge that commits is `afterCycle`, and any other keeps the pc. -/
theorem pcHasThreeWriters : Obligations.PcHasThreeWriters := by
  intro s t rst edge
  cases commits : s.commits with
  | true =>
    obtain rfl : s.afterCycle = t := Host.Outcome.next.inj ((step_commits commits).symm.trans edge)
    rfl
  | false =>
    obtain ⟨run, fault, idle⟩ := step_of_not_commits rst commits
    obtain rfl := Host.Outcome.next.inj (idle.symm.trans edge)
    rfl

/-- Settles O54: the fourth cycle decides on the difference of the registers as they were. -/
theorem branchResolvesInFourCycles : Obligations.BranchResolvesInFourCycles := by
  intro s fA fB fC ready
  have noAccess : (Instr.beq fA fB fC).opcode ∉ [2#10, 3#10] := by simp [Instr.opcode]
  exact ⟨_, ready.steps_four_no_access noAccess, afterThree_afterCycle_regs s, ready.dmem_four_no_access noAccess,
    ready.branch_taken, ready.branch_not_taken⟩

/-- Settles O55: the clock stops the core before a fifth cycle runs. -/
theorem haltDrainsInFourCycles : Obligations.HaltDrainsInFourCycles := by
  intro s fA fB fC ready
  exact ⟨_, ready.steps_five_halt, rfl, afterThree_afterCycle_cycles s, afterThree_afterCycle_regs s,
    ready.dmem_four_no_access (by simp [Instr.opcode]), rfl⟩

/-- Settles O57: the instruction has no destination, so its writeback leaves the registers as they were. -/
theorem noEffectInstructionChangesNothing : Obligations.NoEffectInstructionChangesNothing := by
  intro s i wf op ready
  have ge5 : 5 ≤ i.opcode.toNat := by
    rcases op with jalr | ge7
    · simp [jalr]
    · omega
  have noHalt : i.opcode ≠ 6#10 := by
    intro halt
    simp [halt] at op
  obtain ⟨dest, -⟩ := no_effect_of_opcode_ge5 ge5
  have completes := ready.completesWith (decode_encode_of_wf wf) (opcode_not_mem_of_ge5 ge5) noHalt
  rwa [dest, RegFile.writeDest_none] at completes

/-- R240's example: `beq r1, r1, 5` at address 0. -/
theorem beq_example :
    After 4 (bootWith [0x01090005] 3 0) fun t =>
      t.pc = 6 ∧ t.mispred = 1 ∧ t.ifid.instr = .bubble ∧ t.idex.instr = .bubble ∧ t.exmem.instr = .bubble := by
  have ready : Ready (bootWith [0x01090005] 3 0) (.beq 1 1 5) := by unfold Ready; decide
  obtain ⟨t, four, -, -, taken, -⟩ := branchResolvesInFourCycles _ 1 1 5 ready
  obtain ⟨pc, mispred, ifid, idex, exmem⟩ := taken rfl
  exact ⟨t, four, pc, mispred, congrArg IFID.instr ifid, congrArg IDEX.instr idex, congrArg EXMEM.instr exmem⟩

/-- Settles O14: BEQ's turns are those of its opcode, the zero test splits MEMORY, and the example branches. -/
theorem beqEffect : Obligations.BeqEffect := by
  refine ⟨fun fA fB fC s => ?_, by decide, beq_example⟩
  have roundTrip : decode (encode (.beq fA fB fC)) = .beq fA fB fC := decode_encode_of_wf rfl
  refine ⟨encode_beq fA fB fC, fetchedAndDecoded roundTrip, executedWith_aluOf roundTrip, fun memory zero => ?_,
    fun memory nonzero => ?_, fun outside => by simp [State.fetchSlot, outside], writesNoRegister roundTrip rfl,
    passesClock roundTrip (by simp [Instr.opcode]), stallsOn roundTrip (srcsOf_of_usedSrcs rfl _)⟩
  · obtain ⟨-, flushes⟩ := (memoryBranch_cases (.word (encode (.beq fA fB fC))) s).resolve_right
      fun ⟨nonzero, _⟩ => nonzero zero
    rw [exec_memory_of_beq roundTrip rfl memory, flushes]
    rfl
  · obtain ⟨-, counts⟩ := (memoryBranch_cases (.word (encode (.beq fA fB fC))) s).resolve_left
      fun ⟨zero, _⟩ => nonzero zero
    rw [exec_memory_of_beq roundTrip rfl memory, counts]
    rfl

/-- Settles O15: JALR is an instruction with no effect. -/
theorem jalrHasNoEffect : Obligations.JalrHasNoEffect := by
  intro fA fB fC s
  have roundTrip : decode (encode (.jalr fA fB fC)) = .jalr fA fB fC := decode_encode_of_wf rfl
  exact ⟨encode_jalr fA fB fC, flowsWithoutEffect roundTrip (by simp [Instr.opcode]),
    passesClock roundTrip (by simp [Instr.opcode]), by decide⟩

/-- R245's example: a HALT alone. -/
theorem halt_example :
    After 5 (State.boot [0x01800000]) fun t =>
      t.run = .halted ∧ t.cycles = 4 ∧ t.fetched = 4 ∧ t.retired = 4 ∧ t.regs = Vector.replicate 8 0 := by
  have ready : Ready (State.boot [0x01800000]) (.halt 0 0 0) := by unfold Ready; decide
  exact ⟨_, ready.steps_five_halt, by decide⟩

/-- Settles O16: HALT flows through without effect, and its one act is the clock's. -/
theorem haltEffect : Obligations.HaltEffect := by
  refine ⟨fun fA fB fC s => ?_, by decide, halt_example⟩
  have roundTrip : decode (encode (.halt fA fB fC)) = .halt fA fB fC := decode_encode_of_wf rfl
  exact ⟨encode_halt fA fB fC, flowsWithoutEffect roundTrip (by simp [Instr.opcode]),
    exec_clock_of_halt roundTrip rfl⟩

/-- R247's example: a NOOP and a HALT. The fetched NOOP is a bubble (R110), so the pipeline stays drained for the HALT. -/
theorem noop_example :
    After 6 (State.boot [0x01C00000, 0x01800000]) fun t =>
      t.run = .halted ∧ t.cycles = 5 ∧ t.retired = 5 ∧ t.fetched = 5 := by
  have quiet : Quiet (State.boot [0x01C00000, 0x01800000]) := ⟨rfl, rfl, rfl, rfl, rfl⟩
  have ready : Ready (State.boot [0x01C00000, 0x01800000]).afterQuiet (.halt 0 0 0) := by unfold Ready; decide
  exact ⟨_, (steps_succ quiet.step_eq).trans ready.steps_five_halt, by decide⟩

/-- Settles O17: NOOP is an instruction with no effect. -/
theorem noopEffect : Obligations.NoopEffect := by
  refine ⟨fun fA fB fC s => ?_, by decide, by decide, noop_example⟩
  have roundTrip : decode (encode (.noop fA fB fC)) = .noop fA fB fC := decode_encode_of_wf rfl
  exact ⟨encode_noop fA fB fC, flowsWithoutEffect roundTrip (by simp [Instr.opcode]),
    passesClock roundTrip (by simp [Instr.opcode])⟩

/-- R249's example: two words of unrecognized opcodes, 1023 and 511, and a HALT. -/
theorem data_example :
    After 7 (State.boot [0xFFFFFFFF, 0x7FFFFFFF, 0x01800000]) fun t =>
      t.run = .halted ∧ t.cycles = 6 ∧ t.regs = Vector.replicate 8 0 := by
  have ready : Ready (State.boot [0xFFFFFFFF, 0x7FFFFFFF, 0x01800000]) (.data31 1023 7 7 0xFFFF) := by unfold Ready; decide
  have four := ready.steps_four_no_access (by simp [Instr.opcode])
  have six := steps_then (steps_then four (step_commits (by decide))) (step_commits (by decide))
  exact ⟨_, steps_then six (step_halt rfl rfl (by decide)), by decide⟩

/-- Settles O18: from opcode 8 on an instruction has no effect, and its word is any with a bit of 31..25 set. -/
theorem dataHasNoEffect : Obligations.DataHasNoEffect := by
  refine ⟨fun i s wf op => ?_, toNat_opOf, fun w => ⟨ge8_opOf_iff w, ge8_opOf_of_neg⟩, data_example⟩
  have roundTrip := decode_encode_of_wf wf
  have noHalt : i.opcode ≠ 6#10 := by
    intro halt
    simp [halt] at op
  exact ⟨flowsWithoutEffect roundTrip (by omega), passesClock roundTrip noHalt, mnemonic_of_ge8 op, rfl⟩

/-- Settles O32: a wrapped difference of 0 is equality in the ring of words. -/
theorem branchTestIsEquality : Obligations.BranchTestIsEquality := zeroTest_sub_iff

end Sys2Proof
end

section
/-! A committed cycle, field by field, and what each of its three kinds leaves in the younger latches (40_pipeline.md R131 to
R152): a taken branch, a stall, or an ordinary cycle. -/

namespace Sys2Proof.Machine

/-- An edge has one next state. -/
theorem next_unique {s t u : State} (one : step s = .next t) (edge : step s = .next u) : u = t :=
  Host.Outcome.next.inj (edge.symm.trans one)

theorem eq_afterCycle {s t : State} (commits : s.commits = true) (edge : step s = .next t) : t = s.afterCycle :=
  next_unique (step_commits commits) edge

/-! ### When a cycle commits -/

theorem commits_iff (s : State) : s.commits = true ↔ s.cycleRuns = true ∧ s.memFaults = false := by
  simp [State.commits]

/-- A cycle that commits runs out of reset. -/
theorem commits_spec {s : State} (commits : s.commits = true) :
    s.rst = false ∧ s.run = .running ∧ s.memwb.instr.isHalt = false ∧ s.memwb.instr.isTag = false :=
  (cycleRuns_iff s).1 ((commits_iff s).1 commits).1

theorem memFaults_iff (s : State) :
    s.memFaults = true ↔
      (s.exmem.instr.isLw = true ∨ s.exmem.instr.isSw = true) ∧ inRange s.exmem.aluResult = false := by
  simp [State.memFaults, State.accesses]

/-- The access of a cycle that commits is in range (R146). -/
theorem inRange_of_commits {s : State} (commits : s.commits = true)
    (access : s.exmem.instr.isLw = true ∨ s.exmem.instr.isSw = true) : inRange s.exmem.aluResult = true := by
  obtain ⟨-, noFault⟩ := (commits_iff s).1 commits
  by_contra outside
  have faults := (memFaults_iff s).2 ⟨access, by simpa using outside⟩
  exact absurd faults (by simp [noFault])

/-! ### What EX/MEM holds -/

theorem taken_iff (s : State) : s.taken = true ↔ s.exmem.instr.isBeq = true ∧ s.exmem.aluResult = 0 := by
  simp [State.taken, zeroTest]

theorem no_access_of_isBeq {slot : Slot} (beq : slot.isBeq = true) : slot.isLw = false ∧ slot.isSw = false := by
  cases slot with
  | ff a => exact ⟨rfl, rfl⟩
  | word w => simp [Slot.isLw, Slot.isSw, isOpcode, (isOpcode_iff w 4#10).1 beq]

theorem dest_of_loads {slot : Slot} {r : RegIdx} (loads : slot.loads r = true) : slot.dest = some r := by
  obtain ⟨lw, fieldA⟩ := (loads_iff slot r).1 loads
  rw [dest_of_isLw lw, fieldA]

theorem isLw_of_stall {s : State} (stall : s.stall = true) : s.exmem.instr.isLw = true :=
  ((stallFor_iff s _).1 stall).1

theorem not_stall_of_taken {s : State} (taken : s.taken = true) : s.stall = false :=
  stall_of_not_lw (no_access_of_isBeq ((taken_iff s).1 taken).1).1

/-! ### The fields that every committed cycle writes in one way -/

section
variable (s : State)

@[simp] theorem afterCycle_regs :
    s.afterCycle.regs = s.regs.writeDest s.memwb.instr.dest s.memwb.writeData := rfl
@[simp] theorem afterCycle_imem : s.afterCycle.imem = s.imem := rfl
@[simp] theorem afterCycle_wbend :
    s.afterCycle.wbend = { instr := s.memwb.instr, writeData := s.memwb.writeData } := rfl
@[simp] theorem afterCycle_cycles : s.afterCycle.cycles = s.cycles + 1 := rfl
@[simp] theorem afterCycle_run : s.afterCycle.run = s.run := rfl
@[simp] theorem afterCycle_fault : s.afterCycle.fault = s.fault := rfl
@[simp] theorem afterCycle_rst : s.afterCycle.rst = s.rst := rfl
@[simp] theorem afterCycle_params : s.afterCycle.params = s.params := rfl

theorem afterCycle_pc :
    s.afterCycle.pc = if s.taken then s.exmem.branchTarget else if s.stall then s.pc else s.pc + 1 := rfl
theorem afterCycle_fetched :
    s.afterCycle.fetched = if s.stall && !s.params.fetchCountOnStall then s.fetched else s.fetched + 1 := rfl
theorem afterCycle_mispred : s.afterCycle.mispred = if s.taken then s.mispred + 1 else s.mispred := rfl
theorem afterCycle_notTaken :
    s.afterCycle.notTaken = if s.exmem.instr.isBeq && !s.taken then s.notTaken + 1 else s.notTaken := rfl

/-- The provisional delta of `retired` by the kind of the cycle (R141, R147, R150, R152). -/
theorem afterCycle_retired :
    s.afterCycle.retired =
      if s.stall then s.retired else if s.taken then s.retired - 2 else s.retired + 1 := by
  change s.retired + 1 - (if s.stall then 1 else 0) - (if s.taken then 3 else 0) = _
  cases stall : s.stall with
  | true => simp [not_taken_of_stall stall]
  | false =>
    cases s.taken with
    | true =>
      change s.retired + 1 - 0 - 3 = s.retired - 2
      bv_omega
    | false => simp

end

/-! ### Memory -/

/-- MEMORY leaves an LW's word for its destination (R145). -/
theorem memValue_of_lw {s : State} (lw : s.exmem.instr.isLw = true) : s.memValue = s.dmemRead s.exmem.aluResult := by
  simp [State.memValue, lw]

theorem memValue_of_not_lw {s : State} (lw : s.exmem.instr.isLw = false) : s.memValue = s.exmem.aluResult := by
  simp [State.memValue, lw]

theorem memAfter_of_sw {s : State} (sw : s.exmem.instr.isSw = true) :
    s.memAfter = Memory.write s.dmem s.exmem.aluResult.toNat s.exmem.storeData := by
  simp [State.memAfter, sw]

theorem memAfter_of_not_sw {s : State} (sw : s.exmem.instr.isSw = false) : s.memAfter = s.dmem := by
  simp [State.memAfter, sw]

/-! ### The younger latches -/

/-- A taken branch flushes the three younger latches (R147). -/
theorem afterCycle_of_taken {s : State} (taken : s.taken = true) :
    s.afterCycle.ifid = .bubble ∧ s.afterCycle.idex = .bubble ∧ s.afterCycle.exmem = .bubble := by
  simp [State.afterCycle, taken]

/-- A stall holds IF/ID and ID/EX and puts a bubble into EX/MEM (R141). -/
theorem afterCycle_of_stall {s : State} (stall : s.stall = true) :
    s.afterCycle.ifid = s.ifid ∧ s.afterCycle.idex = s.idex ∧ s.afterCycle.exmem = .bubble := by
  simp [State.afterCycle, stall, not_taken_of_stall stall, executeStage_exmem_stall _ stall]

/-- What EXECUTE leaves in EX/MEM where the core does not stall (R140). -/
def State.executed (s : State) : EXMEM :=
  { instr := s.idex.instr
    branchTarget := s.idex.pcPlus1 + s.idex.offset
    aluResult := s.idex.instr.alu (s.operandA s.idex.instr) (s.operandB s.idex.instr) s.idex.offset
    storeData := s.operandA s.idex.instr }

/-- An ordinary cycle moves every slot on (R134, R137, R140). -/
theorem afterCycle_of_ordinary {s : State} (stall : s.stall = false) (taken : s.taken = false) :
    s.afterCycle.ifid = { instr := s.fetchSlot, pcPlus1 := s.pc + 1 } ∧
      s.afterCycle.idex = (decodeStage s.ifid.instr s).idex ∧ s.afterCycle.exmem = s.executed := by
  have noStall : s.stallFor s.idex.instr = false := stall
  simp [State.afterCycle, stall, taken, executeStage, noStall, State.executed]

end Sys2Proof.Machine
end

section
/-! The invariant (10_state.md sections 4 and 6; 40_pipeline.md sections 1 and 6): it holds at reset, and each way an edge can
end keeps it. -/

namespace Sys2Proof.Machine

/-- `State.inv`, part by part. -/
structure Invariant (s : State) : Prop where
  imem : s.imem.wf = true
  dmem : s.dmem.wf = true
  fault : s.faultOk = true
  ifid : s.ifid.instr.tagOk = true
  idex : s.idex.instr.tagOk = true
  exmem : s.exmem.instr.tagOk = true
  memwb : s.memwb.instr.tagOk = true
  wbend_halt : s.wbend.instr.isHalt = false
  wbend_tag : s.wbend.instr.isTag = false

theorem inv_iff (s : State) : s.inv = true ↔ Invariant s := by
  simp only [State.inv, Bool.and_eq_true, Bool.not_eq_true']
  constructor
  · rintro ⟨⟨⟨⟨⟨⟨⟨⟨imem, dmem⟩, fault⟩, ifid⟩, idex⟩, exmem⟩, memwb⟩, halt⟩, tag⟩
    exact ⟨imem, dmem, fault, ifid, idex, exmem, memwb, halt, tag⟩
  · rintro ⟨imem, dmem, fault, ifid, idex, exmem, memwb, halt, tag⟩
    exact ⟨⟨⟨⟨⟨⟨⟨⟨imem, dmem⟩, fault⟩, ifid⟩, idex⟩, exmem⟩, memwb⟩, halt⟩, tag⟩

/-- Behind a reset only the memories are left to check. -/
theorem Invariant.of_reset (s : State) {imem dmem : Memory} (imem_wf : imem.wf = true) (dmem_wf : dmem.wf = true) :
    Invariant { s.resetEdge with imem := imem, dmem := dmem } :=
  { imem := imem_wf, dmem := dmem_wf, fault := rfl, ifid := rfl, idex := rfl, exmem := rfl, memwb := rfl
    wbend_halt := bubble_isHalt, wbend_tag := rfl }

/-- No record stands in a running core. -/
theorem fault_eq_none {s : State} (ok : s.faultOk = true) (run : s.run = .running) : s.fault = none := by
  cases fault : s.fault with
  | none => rfl
  | some record => simp [State.faultOk, fault, run] at ok

theorem Invariant.haltClock {s : State} (inv : Invariant s) (run : s.run = .running) : Invariant (haltClock s) :=
  { inv with fault := by simp [State.faultOk, fault_eq_none inv.fault run] }

/-- The record of a fatal entry names the cause (R302). -/
theorem Invariant.raiseFatal {s : State} (inv : Invariant s) {info : Fatal} (ok : info.ok = true) : Invariant (s.raiseFatal info) :=
  { inv with fault := by simp [State.faultOk, ok] }

/-- Fetch makes a tag of an address outside memory only (R135). -/
theorem fetchSlot_tagOk (s : State) : s.fetchSlot.tagOk = true := by
  cases inside : inRange s.pc with
  | true => simp [State.fetchSlot, inside, Slot.tagOk]
  | false => simp [State.fetchSlot, inside, Slot.tagOk]

/-- SW is the one writer of data memory, and its address is in range (R80, R145). -/
theorem memAfter_wf {s : State} (commits : s.commits = true) (wf : s.dmem.wf = true) : s.memAfter.wf = true := by
  cases sw : s.exmem.instr.isSw with
  | false => rwa [memAfter_of_not_sw sw]
  | true =>
    rw [memAfter_of_sw sw]
    exact Memory.wf_write _ _ wf (inRange_lt (inRange_of_commits commits (.inr sw)))

/-- Whatever its kind, a committed cycle puts into the younger latches slots whose tags are outside memory. -/
theorem Invariant.afterCycle_tags {s : State} (inv : Invariant s) :
    s.afterCycle.ifid.instr.tagOk = true ∧ s.afterCycle.idex.instr.tagOk = true ∧
      s.afterCycle.exmem.instr.tagOk = true := by
  cases taken : s.taken with
  | true =>
    obtain ⟨ifid, idex, exmem⟩ := afterCycle_of_taken taken
    rw [ifid, idex, exmem]
    exact ⟨rfl, rfl, rfl⟩
  | false =>
    cases stall : s.stall with
    | true =>
      obtain ⟨ifid, idex, exmem⟩ := afterCycle_of_stall stall
      rw [ifid, idex, exmem]
      exact ⟨inv.ifid, inv.idex, rfl⟩
    | false =>
      obtain ⟨ifid, idex, exmem⟩ := afterCycle_of_ordinary stall taken
      rw [ifid, idex, exmem, decodeStage_idex_instr]
      exact ⟨fetchSlot_tagOk s, inv.ifid, inv.idex⟩

theorem Invariant.afterCycle {s : State} (inv : Invariant s) (commits : s.commits = true) : Invariant s.afterCycle := by
  obtain ⟨-, -, noHalt, noTag⟩ := commits_spec commits
  obtain ⟨ifid, idex, exmem⟩ := inv.afterCycle_tags
  exact
    { imem := inv.imem, dmem := memAfter_wf commits inv.dmem, fault := inv.fault, ifid := ifid, idex := idex
      exmem := exmem, memwb := inv.exmem, wbend_halt := noHalt, wbend_tag := noTag }

theorem Invariant.step {s t : State} (inv : Invariant s) (edge : step s = .next t) : Invariant t := by
  rcases step_cases s with ⟨-, reset⟩ | ⟨-, -, stopped⟩ | ⟨-, run, -, halts⟩ | ⟨a, -, -, slot, tag⟩ |
    ⟨w, -, faults, -, access, bounds⟩ | ⟨commits, -⟩
  · rw [next_unique reset edge]
    exact Invariant.of_reset s inv.imem inv.dmem
  · rwa [next_unique stopped edge]
  · rw [next_unique halts edge]
    exact inv.haltClock run
  · have outside := inv.memwb
    rw [slot] at outside
    rw [next_unique tag edge]
    exact inv.raiseFatal outside
  · obtain ⟨-, outside⟩ := (memFaults_iff s).1 faults
    rw [next_unique bounds edge]
    exact inv.raiseFatal (by simp [Fatal.ok, outside, access])
  · rw [eq_afterCycle commits edge]
    exact inv.afterCycle commits

end Sys2Proof.Machine

namespace Sys2Proof

open Sys2Proof.Machine

/-- Settles O48: reset holds no tag, no HALT and no record, and a loaded image is canonical. -/
theorem invariantHoldsAtReset : Obligations.InvariantHoldsAtReset := by
  refine ⟨(inv_iff _).2 (Invariant.of_reset State.reset rfl rfl), fun img fits => (inv_iff _).2 ?_⟩
  exact Invariant.of_reset State.reset (Memory.wf_ofImage img fits) (Memory.wf_ofImage img fits)

/-- Settles O49, by the six ways an edge ends. -/
theorem invariantIsKept : Obligations.InvariantIsKept :=
  fun s t inv edge => (inv_iff t).2 (((inv_iff s).1 inv).step edge)

end Sys2Proof
end

section
/-! Latch values that no rule reads (40_pipeline.md R154). Setting them to 0 changes nothing that a cycle reads, so an edge from
`s.observed` ends as one from `s` does, but for values that are unread again. -/

namespace Sys2Proof.Machine

section
variable (s : State)

@[simp] theorem observed_regs : s.observed.regs = s.regs := rfl
@[simp] theorem observed_dmem : s.observed.dmem = s.dmem := rfl
@[simp] theorem observed_idex : s.observed.idex = s.idex := rfl
@[simp] theorem observed_params : s.observed.params = s.params := rfl
@[simp] theorem observed_exmem_instr : s.observed.exmem.instr = s.exmem.instr := rfl
@[simp] theorem observed_memwb_instr : s.observed.memwb.instr = s.memwb.instr := rfl
@[simp] theorem observed_cycleRuns : s.observed.cycleRuns = s.cycleRuns := rfl
@[simp] theorem observed_stall : s.observed.stall = s.stall := rfl
@[simp] theorem observed_decodeStage (slot : Slot) : (decodeStage slot s.observed).idex = (decodeStage slot s).idex := by
  cases slot <;> rfl

end

variable {s : State}

/-! ### The values that are read are kept -/

theorem observed_aluResult (read : s.exmem.instr.readsAluResult = true) :
    s.observed.exmem.aluResult = s.exmem.aluResult := by
  simp [State.observed, read]

theorem readsAluResult_of_access (access : s.exmem.instr.isLw = true ∨ s.exmem.instr.isSw = true) :
    s.exmem.instr.readsAluResult = true := by
  rcases access with lw | sw
  · simp [Slot.readsAluResult, lw]
  · simp [Slot.readsAluResult, sw]

theorem readsAluResult_of_beq (beq : s.exmem.instr.isBeq = true) : s.exmem.instr.readsAluResult = true := by
  simp [Slot.readsAluResult, beq]

theorem readsAluResult_of_dest {r : RegIdx} (dest : s.exmem.instr.dest = some r) :
    s.exmem.instr.readsAluResult = true := by
  simp [Slot.readsAluResult, dest]

theorem observed_branchTarget (beq : s.exmem.instr.isBeq = true) :
    s.observed.exmem.branchTarget = s.exmem.branchTarget := by
  simp [State.observed, beq]

theorem observed_storeData (sw : s.exmem.instr.isSw = true) : s.observed.exmem.storeData = s.exmem.storeData := by
  simp [State.observed, sw]

theorem observed_memwb_writeData {r : RegIdx} (dest : s.memwb.instr.dest = some r) :
    s.observed.memwb.writeData = s.memwb.writeData := by
  simp [State.observed, dest]

theorem observed_wbend_writeData {r : RegIdx} (dest : s.wbend.instr.dest = some r) :
    s.observed.wbend.writeData = s.wbend.writeData := by
  simp [State.observed, dest]

/-! ### What a cycle reads of the latches -/

/-- Forwarding takes a latch's value only where the latch has a destination (R143, R144). -/
@[simp] theorem observed_fwd (r : RegIdx) (raw : Word) : s.observed.fwd r raw = s.fwd r raw := by
  have youngest : s.observed.fwdYoungest r raw = s.fwdYoungest r raw :=
    ite_congr rfl (fun dest => observed_aluResult (readsAluResult_of_dest dest)) fun _ =>
      ite_congr rfl observed_memwb_writeData fun _ => ite_congr rfl observed_wbend_writeData fun _ => rfl
  have override : s.observed.fwdOverride r raw = s.fwdOverride r raw :=
    ite_congr rfl (fun loads => observed_memwb_writeData (dest_of_loads loads)) fun _ =>
      ite_congr rfl (fun loads => observed_wbend_writeData (dest_of_loads loads)) fun _ => youngest
  rw [State.fwd, State.fwd, youngest, override, observed_params]

/-- So EXECUTE leaves the same in EX/MEM, stall or not. -/
@[simp] theorem observed_executeStage (slot : Slot) (alu : Word → Word → Word → Word) :
    (executeStage slot alu s.observed).exmem = (executeStage slot alu s).exmem := by
  have operand : s.observed.operand = s.operand := by
    funext field raw
    cases field with
    | none => rfl
    | some r => exact observed_fwd r raw
  have stallFor : s.observed.stallFor slot = s.stallFor slot := rfl
  cases stall : s.stallFor slot with
  | true => simp [executeStage, stallFor, stall]
  | false => simp [executeStage, stallFor, stall, State.operandA, State.operandB, operand]

@[simp] theorem observed_taken : s.observed.taken = s.taken := by
  cases beq : s.exmem.instr.isBeq with
  | false => rw [taken_of_not_beq beq, taken_of_not_beq (s := s.observed) beq]
  | true => rw [State.taken, State.taken, observed_aluResult (readsAluResult_of_beq beq), observed_exmem_instr]

@[simp] theorem observed_memFaults : s.observed.memFaults = s.memFaults := by
  cases access : s.accesses with
  | false => simp [State.memFaults, access, show s.observed.accesses = false from access]
  | true =>
    have read := readsAluResult_of_access (by simpa [State.accesses] using access)
    simp [State.memFaults, State.accesses, observed_aluResult read]

/-- A writeback reads the value of an instruction with a destination (R150). -/
@[simp] theorem observed_writeback :
    s.regs.writeDest s.memwb.instr.dest s.observed.memwb.writeData =
      s.regs.writeDest s.memwb.instr.dest s.memwb.writeData := by
  cases dest : s.memwb.instr.dest with
  | none => rfl
  | some r => rw [observed_memwb_writeData dest]

/-- The branch target is read of a BEQ (R147). -/
@[simp] theorem observed_target (other : Word) :
    (if s.taken then s.observed.exmem.branchTarget else other) =
      if s.taken then s.exmem.branchTarget else other :=
  ite_congr rfl (fun taken => observed_branchTarget ((taken_iff s).1 taken).1) fun _ => rfl

@[simp] theorem observed_memAfter : s.observed.memAfter = s.memAfter :=
  ite_congr rfl (fun sw => by
    rw [observed_aluResult (readsAluResult_of_access (.inr sw)), observed_storeData sw, observed_dmem]) fun _ => rfl

/-- An edge from `s.observed` differs from one from `s` in the values of the two older latches only. -/
theorem observed_afterCycle_eq :
    s.observed.afterCycle =
      { s.afterCycle with
        memwb := { instr := s.exmem.instr, writeData := s.observed.memValue }
        wbend := { instr := s.memwb.instr, writeData := s.observed.memwb.writeData } } := by
  simp only [State.afterCycle, observed_taken, observed_target, observed_stall, observed_memAfter, observed_writeback,
    observed_executeStage, observed_decodeStage, observed_regs, observed_idex, observed_memwb_instr, observed_exmem_instr]
  rfl

/-- Values of the two older latches that a writeback or a forwarding would read decide what is observed of them. -/
theorem observed_older_latches {t : State} {mem wb : Slot} {m m' b b' : Word} (memwb : ∀ r, mem.dest = some r → m' = m)
    (wbend : ∀ r, wb.dest = some r → b' = b) :
    State.observed { t with memwb := { instr := mem, writeData := m' }, wbend := { instr := wb, writeData := b' } } =
      State.observed { t with memwb := { instr := mem, writeData := m }, wbend := { instr := wb, writeData := b } } := by
  have kept : ∀ {slot : Slot} {v v' : Word}, (∀ r, slot.dest = some r → v' = v) →
      (if slot.dest.isSome then v' else 0) = if slot.dest.isSome then v else 0 :=
    fun same => ite_congr rfl (fun some => same _ (Option.some_get some).symm) fun _ => rfl
  simp only [State.observed, kept memwb, kept wbend]

theorem observed_memValue {r : RegIdx} (dest : s.exmem.instr.dest = some r) : s.observed.memValue = s.memValue := by
  rw [State.memValue, State.memValue, State.dmemRead, observed_aluResult (readsAluResult_of_dest dest)]
  rfl

/-- A committed cycle moves unread values to latches where they are unread again. -/
theorem observed_afterCycle : s.observed.afterCycle.observed = s.afterCycle.observed := by
  rw [observed_afterCycle_eq]
  exact observed_older_latches (t := s.afterCycle) (fun _ => observed_memValue) fun _ => observed_memwb_writeData

theorem observed_observed : s.observed.observed = s.observed := by
  have twice : ∀ (read : Bool) (v : Word), (if read then (if read then v else 0) else 0) = if read then v else 0 := by
    intro read v
    cases read <;> rfl
  simp only [State.observed, State.mk.injEq, EXMEM.mk.injEq, MEMWB.mk.injEq, WBEND.mk.injEq, true_and, and_true]
  exact ⟨⟨twice _ _, twice _ _, twice _ _⟩, twice _ _, twice _ _⟩

/-- An edge from `s.observed` ends as one from `s` does, but for unread values. -/
theorem step_observed {t : State} (edge : step s = .next t) :
    ∃ u, step s.observed = .next u ∧ u.observed = t.observed := by
  rcases step_cases s with ⟨rst, reset⟩ | ⟨rst, run, stopped⟩ | ⟨rst, run, halt, halts⟩ | ⟨a, rst, run, slot, tag⟩ |
    ⟨w, runs, faults, slot, access, bounds⟩ | ⟨commits, -⟩
  · exact ⟨_, step_rst (s := s.observed) rst, by rw [next_unique reset edge]; rfl⟩
  · exact ⟨_, step_stopped (s := s.observed) rst run, by rw [next_unique stopped edge, observed_observed]⟩
  · exact ⟨_, step_halt (s := s.observed) rst run halt, by
      rw [next_unique halts edge]; exact congrArg haltClock observed_observed⟩
  · refine ⟨_, step_tag (s := s.observed) rst run slot, ?_⟩
    rw [next_unique tag edge]
    exact congrArg (State.raiseFatal · _) observed_observed
  · obtain ⟨w', slot', -, bounds'⟩ := step_memFaults (s := s.observed) runs (by rwa [observed_memFaults])
    obtain ⟨access, -⟩ := (memFaults_iff s).1 faults
    obtain rfl : w = w' := Slot.word.inj (slot.symm.trans slot')
    refine ⟨_, bounds', ?_⟩
    rw [next_unique bounds edge, observed_aluResult (readsAluResult_of_access access)]
    exact congrArg (State.raiseFatal · _) observed_observed
  · have commits' : s.observed.commits = true := by
      rwa [State.commits, observed_cycleRuns, observed_memFaults]
    refine ⟨_, step_commits commits', ?_⟩
    rw [eq_afterCycle commits edge, observed_afterCycle]

end Sys2Proof.Machine

namespace Sys2Proof

open Sys2Proof.Machine

/-- Settles O50: both edges end as the one from the common observed state does. -/
theorem unreadLatchValuesReachNothing : Obligations.UnreadLatchValuesReachNothing := by
  intro s s' same
  obtain ⟨t, edge⟩ := step_next s
  obtain ⟨t', edge'⟩ := step_next s'
  obtain ⟨u, common, left⟩ := step_observed edge
  obtain ⟨u', common', right⟩ := step_observed edge'
  rw [← same] at common'
  obtain rfl : u' = u := next_unique common common'
  exact ⟨t, t', edge, edge', left.symm.trans right⟩

end Sys2Proof
end

section
/-! The counters (40_pipeline.md R136, R141, R147, R148, R152): their identities with the number of stall cycles (R155). -/

namespace Sys2Proof.Machine

/-- A committed cycle adds its own stall to the identities. -/
theorem CountersAgree.afterCycle {stalls : Word} {s : State} (agree : CountersAgree stalls s) :
    CountersAgree (if s.stall then stalls + 1 else stalls) s.afterCycle := by
  obtain ⟨retired, fetched⟩ := agree
  rw [CountersAgree, afterCycle_retired, afterCycle_fetched, afterCycle_mispred, afterCycle_cycles, afterCycle_params,
    retired, fetched]
  constructor
  · cases stall : s.stall with
    | true =>
      rw [not_taken_of_stall stall]
      change s.cycles - stalls - 3 * s.mispred = s.cycles + 1 - (stalls + 1) - 3 * s.mispred
      ring
    | false =>
      cases s.taken with
      | true =>
        change s.cycles - stalls - 3 * s.mispred - 2 = s.cycles + 1 - stalls - 3 * (s.mispred + 1)
        ring
      | false =>
        change s.cycles - stalls - 3 * s.mispred + 1 = s.cycles + 1 - stalls - 3 * s.mispred
        ring
  · cases s.params.fetchCountOnStall with
    | true => simp
    | false =>
      cases s.stall with
      | true =>
        change s.cycles - stalls = s.cycles + 1 - (stalls + 1)
        ring
      | false =>
        change s.cycles - stalls + 1 = s.cycles + 1 - stalls
        ring

/-- An edge without reset adds a stall exactly where it commits one. -/
theorem CountersAgree.step {stalls : Word} {s t : State} (agree : CountersAgree stalls s) (rst : s.rst = false)
    (edge : step s = .next t) : CountersAgree (if s.commits && s.stall then stalls + 1 else stalls) t := by
  cases commits : s.commits with
  | true =>
    rw [eq_afterCycle commits edge]
    exact agree.afterCycle
  | false =>
    obtain ⟨run, fault, idle⟩ := step_of_not_commits rst commits
    rw [next_unique idle edge]
    exact agree

/-- No edge drives the reset input or the parameters. -/
theorem step_keeps_inputs {s t : State} (edge : step s = .next t) : t.rst = s.rst ∧ t.params = s.params := by
  rcases step_cases s with ⟨-, e⟩ | ⟨-, -, e⟩ | ⟨-, -, -, e⟩ | ⟨_, -, -, -, e⟩ | ⟨_, -, -, -, -, e⟩ | ⟨-, e⟩ <;>
    exact next_unique e edge ▸ ⟨rfl, rfl⟩

theorem stallCycles_succ {k : Nat} {s t : State} (edge : step s = .next t) :
    stallCycles (k + 1) s = (if s.commits && s.stall then 1 else 0) + stallCycles k t := by
  rw [stallCycles, edge]

/-- Any number of edges without reset adds the stalls among them. -/
theorem CountersAgree.steps {stalls : Word} {s t : State} (agree : CountersAgree stalls s) (rst : s.rst = false) (n : Nat)
    (run : steps n s = .next t) :
    CountersAgree (stalls + BitVec.ofNat 32 (stallCycles n s)) t ∧ t.params = s.params := by
  induction n generalizing s stalls with
  | zero =>
    cases run
    exact ⟨by simpa [stallCycles] using agree, rfl⟩
  | succ n ih =>
    obtain ⟨u, edge⟩ := step_next s
    obtain ⟨rst_eq, params_eq⟩ := step_keeps_inputs edge
    rw [steps_succ edge] at run
    obtain ⟨agree', params⟩ := ih (agree.step rst edge) (rst_eq.trans rst) run
    refine ⟨?_, params.trans params_eq⟩
    convert agree' using 1
    rw [stallCycles_succ edge, BitVec.ofNat_add]
    split
    · change stalls + (1 + _) = stalls + 1 + _
      ring
    · change stalls + (0 + _) = stalls + _
      ring

/-- Counters at 0, as reset leaves them (R50), agree with no stall. -/
theorem countersAgree_of_zero {s : State} (cycles : s.cycles = 0) (fetched : s.fetched = 0) (retired : s.retired = 0)
    (mispred : s.mispred = 0) : CountersAgree 0 s := by
  simp [CountersAgree, cycles, fetched, retired, mispred]

end Sys2Proof.Machine

namespace Sys2Proof

open Sys2Proof.Machine

/-- Settles O59: a committed edge is `afterCycle`, and any other keeps the counters. -/
theorem counterIdentitiesAreKept : Obligations.CounterIdentitiesAreKept :=
  fun _ _ _ rst agree edge => agree.step rst edge

/-- Settles O60: a load and a reset edge leave the counters at 0. -/
theorem counterIdentitiesHoldAtReset : Obligations.CounterIdentitiesHoldAtReset := by
  refine ⟨fun img p => countersAgree_of_zero rfl rfl rfl rfl, fun s t rst edge => ?_⟩
  rw [next_unique (step_rst rst) edge]
  exact countersAgree_of_zero rfl rfl rfl rfl

/-- Settles O39, by induction on the number of edges. -/
theorem counterIdentitiesHoldOfEveryRun : Obligations.CounterIdentitiesHoldOfEveryRun := by
  intro img p n t run
  have boot : CountersAgree 0 ((State.boot img).withParams p) := countersAgree_of_zero rfl rfl rfl rfl
  obtain ⟨⟨retired, fetched⟩, params⟩ := boot.steps rfl n run
  rw [zero_add] at retired fetched
  rw [params] at fetched
  exact ⟨retired, fetched⟩

/-- Settles O38: the counters of `afterCycle`. -/
theorem countersOfACommittedCycle : Obligations.CountersOfACommittedCycle := by
  intro s t commits edge
  rw [eq_afterCycle commits edge]
  exact ⟨afterCycle_fetched s, afterCycle_retired s, afterCycle_mispred s, afterCycle_notTaken s⟩

end Sys2Proof
end

section
/-! Registers and memories at an edge (10_state.md R32; 20_memory.md R77, R82 to R84, R88; 60_exceptions.md R310, R311). -/

namespace Sys2Proof.Machine

/-- An edge that commits nothing, a reset edge too, keeps data memory. -/
theorem dmem_of_not_commits {s t : State} (idle : s.commits = false) (edge : step s = .next t) : t.dmem = s.dmem := by
  cases rst : s.rst with
  | true => exact next_unique (step_rst rst) edge ▸ rfl
  | false =>
    obtain ⟨run, fault, e⟩ := step_of_not_commits rst idle
    exact next_unique e edge ▸ rfl

/-- A word of data memory after MEMORY. -/
theorem read_memAfter {s : State} (wf : s.dmem.wf = true) (a : Nat) :
    Memory.read s.memAfter a =
      if s.exmem.instr.isSw = true ∧ a = s.exmem.aluResult.toNat then s.exmem.storeData else Memory.read s.dmem a := by
  cases sw : s.exmem.instr.isSw with
  | false => simp [memAfter_of_not_sw sw]
  | true =>
    rw [memAfter_of_sw sw]
    by_cases same : a = s.exmem.aluResult.toNat
    · subst same
      simp [Memory.read_write_self _ _ wf]
    · simp [same]

/-- In range, the port's 16 bits are the whole address (R88). -/
theorem toNat_dmemAddr {s : State} (inside : inRange s.exmem.aluResult = true) :
    s.memoryPorts.dmemAddr.toNat = s.exmem.aluResult.toNat := by
  have lt : s.exmem.aluResult.toNat < 65536 := inRange_lt inside
  change (s.exmem.aluResult.extractLsb' 0 16).toNat = _
  rw [toNat_extractLsb'_eq_div]
  omega

end Sys2Proof.Machine

namespace Sys2Proof

open Sys2Proof.Machine

/-- Settles O8: the load is the two images, and a canonical image reads as its list. -/
theorem loadPutsTheImageInBothMemories : Obligations.LoadPutsTheImageInBothMemories := by
  intro s img fits
  have read (a : Nat) : Memory.read (Memory.ofImage img) a = img.getD a 0 := by
    have := Memory.read_ofImageFrom img 0 a (by rwa [Nat.zero_add])
    rwa [Nat.zero_add] at this
  rcases loadImage_cases s img with ⟨held, -, loads⟩ | ⟨idle, loads⟩
  · exact ⟨fun released => absurd held (by simp [released]), fun _ => ⟨_, loads, fun a => ⟨read a, read a⟩⟩⟩
  · refine ⟨fun _ => loads, fun held => ?_⟩
    rcases idle with released | long
    · exact absurd held (by simp [released])
    · exact absurd fits (Nat.not_le.2 long)

/-- Settles O21: a committed cycle writes the one destination of MEM/WB, and any other edge keeps the registers. -/
theorem registersChangeOnlyByWriteback : Obligations.RegistersChangeOnlyByWriteback := by
  intro s t r rst edge
  cases commits : s.commits with
  | true =>
    rw [eq_afterCycle commits edge, afterCycle_regs, RegFile.read_writeDest]
    simp
  | false =>
    obtain ⟨run, fault, idle⟩ := step_of_not_commits rst commits
    rw [next_unique idle edge]
    simp

/-- Settles O22: none of the six ways an edge ends writes it. -/
theorem instructionMemoryNeverChanges : Obligations.InstructionMemoryNeverChanges := by
  intro s t edge
  rcases step_cases s with ⟨-, e⟩ | ⟨-, -, e⟩ | ⟨-, -, -, e⟩ | ⟨_, -, -, -, e⟩ | ⟨_, -, -, -, -, e⟩ | ⟨-, e⟩ <;>
    exact next_unique e edge ▸ rfl

/-- Settles O23: only an SW of a committed cycle writes, and a write is to one address. -/
theorem dataMemoryChangesOnlyByAStore : Obligations.DataMemoryChangesOnlyByAStore := by
  intro s t a wf edge
  cases commits : s.commits with
  | true =>
    rw [eq_afterCycle commits edge, afterCycle_dmem, read_memAfter wf]
    simp
  | false => simp [dmem_of_not_commits commits edge]

/-- Settles O24: the load's address is in range because the store's was, so its cycle commits and reads the store's word. -/
theorem loadAfterStoreGetsTheStoredWord : Obligations.LoadAfterStoreGetsTheStoredWord := by
  intro s t u wf commits sw edge runs lw address edge'
  have noFault : t.memFaults = false := by
    simp [State.memFaults, address, inRange_of_commits commits (.inr sw)]
  have stored : Memory.read t.dmem s.exmem.aluResult.toNat = s.exmem.storeData := by
    rw [eq_afterCycle commits edge, afterCycle_dmem, read_memAfter wf]
    simp [sw]
  rw [eq_afterCycle ((commits_iff t).2 ⟨runs, noFault⟩) edge', afterCycle_memwb]
  exact ⟨rfl, by rw [memValue_of_lw lw, State.dmemRead, address, stored]⟩

/-- Settles O46: a committed access is in range, where the port's address is the access's. -/
theorem memoryPortsCarryTheCyclesAccesses : Obligations.MemoryPortsCarryTheCyclesAccesses := by
  intro s t commits edge
  rw [eq_afterCycle commits edge]
  refine ⟨fun load => ?_, fun store => ?_, fun noStore => ?_, fun fetch stall taken => ?_⟩
  · obtain ⟨lw, inside⟩ := Bool.and_eq_true_iff.1 load
    rw [afterCycle_memwb, memValue_of_lw lw, State.dmemRead, ← toNat_dmemAddr inside]
    rfl
  · obtain ⟨sw, inside⟩ := Bool.and_eq_true_iff.1 store
    rw [afterCycle_dmem, memAfter_of_sw sw, toNat_dmemAddr inside]
    rfl
  · cases sw : s.exmem.instr.isSw with
    | false => rw [afterCycle_dmem, memAfter_of_not_sw sw]
    | true =>
      have store : s.memoryPorts.dmemWe = true := Bool.and_eq_true_iff.2 ⟨sw, inRange_of_commits commits (.inr sw)⟩
      exact absurd store (by simp [noStore])
  · obtain ⟨inside, -⟩ := Bool.and_eq_true_iff.1 fetch
    obtain ⟨ifid, -⟩ := afterCycle_of_ordinary stall taken
    rw [ifid]
    simp [State.fetchSlot, inside, State.memoryPorts]

/-- Settles O47: below 65536 the port's one condition is reset or a run state other than RUNNING. -/
theorem hostReadsDataMemoryOnlyWhenStopped : Obligations.HostReadsDataMemoryOnlyWhenStopped := by
  intro s a small
  have small : a < Config.memSize := small
  constructor
  · rintro (held | halted | faulted)
    · simp [State.hostReadDmem, held, small]
    · simp [State.hostReadDmem, halted, small]
    · simp [State.hostReadDmem, faulted, small]
  · intro released running
    simp [State.hostReadDmem, released, running]

end Sys2Proof
end

section
/-! Reset, HALT and the two fatal causes (60_exceptions.md R301 to R304; 70_reset_and_hazards.md R340). -/

namespace Sys2Proof.Machine

/-- An address outside 0 to 65535, read as a signed number (R80). -/
theorem inRange_eq_false_of {a : Word} (outside : a.toInt < 0 ∨ 65536 ≤ a.toInt) : inRange a = false := by
  rw [← Bool.not_eq_true, inRange_iff_toInt]
  omega

/-- An edge that leaves the state as it is, repeated. -/
theorem steps_of_fixed {s : State} (fixed : step s = .next s) (n : Nat) : steps n s = .next s := by
  induction n with
  | zero => exact steps_zero s
  | succ n ih => exact steps_then ih fixed

end Sys2Proof.Machine

namespace Sys2Proof

open Sys2Proof.Machine

/-- Settles O7: the reset edge's latches are those of `State.reset`. -/
theorem resetEdgeResetsAllButMemories : Obligations.ResetEdgeResetsAllButMemories := fun _ rst => step_rst rst

/-- Settles O40: the clock finds the HALT before any stage runs. -/
theorem haltInMemWbStopsTheCore : Obligations.HaltInMemWbStopsTheCore := fun _ rst run halt => step_halt rst run halt

/-- Settles O41: the clock finds the tag before any stage runs. -/
theorem tagInMemWbFaultsTheCore : Obligations.TagInMemWbFaultsTheCore := fun _ _ rst run tag => step_tag rst run tag

/-- Settles O42: the memory stage of an access out of range raises the fault that the whole edge is. -/
theorem accessOutOfRangeFaultsTheCore : Obligations.AccessOutOfRangeFaultsTheCore := by
  intro s w runs slot access outside
  have faults : s.memFaults = true := by
    rw [memFaults_iff, slot]
    exact ⟨access.imp (isOpcode_iff ..).2 (isOpcode_iff ..).2, inRange_eq_false_of outside⟩
  obtain ⟨w', slot', -, edge⟩ := step_memFaults runs faults
  obtain rfl : w = w' := Slot.word.inj (slot.symm.trans slot')
  exact edge

/-- Settles O43: of the six ways an edge ends, the HALT's leaves HALTED and the two faults' FAULTED. -/
theorem runningEndsOnlyByHaltOrFatalCause : Obligations.RunningEndsOnlyByHaltOrFatalCause := by
  intro s t rst run edge
  rcases step_cases s with ⟨reset, -⟩ | ⟨-, stopped, -⟩ | ⟨-, -, halt, e⟩ | ⟨a, -, -, slot, e⟩ | ⟨w, runs, faults, -, -, e⟩ |
    ⟨commits, e⟩
  · exact absurd reset (by simp [rst])
  · exact absurd run stopped
  · have noTag : s.memwb.instr.isTag = false := by
      cases slot : s.memwb.instr with
      | word w => rfl
      | ff a => simp [slot, Slot.isHalt] at halt
    have noCycle : s.cycleRuns = false := by simp [State.cycleRuns, halt]
    simp [next_unique e edge, halt, noTag, noCycle]
  · simp [next_unique e edge, slot, Slot.isHalt, Slot.isTag]
  · obtain ⟨-, -, noHalt, -⟩ := (cycleRuns_iff s).1 runs
    simp [next_unique e edge, runs, faults, noHalt]
  · obtain ⟨-, -, noHalt, noTag⟩ := commits_spec commits
    obtain ⟨-, noFault⟩ := (commits_iff s).1 commits
    simp [next_unique e edge, run, noHalt, noTag, noFault]

/-- Settles O44: outside RUNNING an edge without reset changes nothing. -/
theorem terminalStatesStayUntilReset : Obligations.TerminalStatesStayUntilReset :=
  fun _ n stopped =>
    ⟨fun rst => steps_of_fixed (step_stopped rst stopped) n, fun rst => ⟨_, step_rst rst, rfl, rfl⟩⟩

/-- Settles O45: the ports are projections of the record that `raiseFatal` leaves. -/
theorem outputsShowTheFault : Obligations.OutputsShowTheFault := by
  intro s a w
  refine ⟨⟨rfl, rfl, rfl, rfl, rfl⟩, ⟨rfl, rfl, rfl, rfl, rfl⟩, fun noRecord => ?_⟩
  simp [State.outputs, noRecord]

end Sys2Proof
end

section
/-! Operands and the load-use detector (30_encoding.md R112; 40_pipeline.md R138, R143, R144). -/

namespace Sys2Proof.Machine

/-- A register that the opcode reads is one of its word's two register fields (R112). -/
theorem usedSrcs_subset {i : Instr} {r : RegIdx} (used : r ∈ usedSrcs i) : r = i.fA ∨ r = i.fB := by
  cases i with
  | add | nand | sw | beq => simpa [usedSrcs, Instr.fA, Instr.fB] using used
  | lw => simpa [usedSrcs, Instr.fA, Instr.fB] using Or.inr used
  | jalr | halt | noop | data31 | data30 | data29 | data28 | data27 | data26 | data25 => simp [usedSrcs] at used

/-- Either reading of R112 stalls on every register that the opcode reads. -/
theorem mem_srcsOf_of_used {i : Instr} {r : RegIdx} (used : r ∈ usedSrcs i) (p : Config.Params) : r ∈ srcsOf p i := by
  unfold srcsOf
  cases p.stallSources with
  | used => exact used
  | fields => simpa using usedSrcs_subset used

/-- Without a stall no load in EX/MEM is into a register that the slot in ID/EX reads. -/
theorem not_loads_of_used {s : State} {w : Word} {r : RegIdx} (slot : s.idex.instr = .word w)
    (used : r ∈ usedSrcs (decode w)) (noStall : s.stall = false) (dest : s.exmem.instr.dest = some r) :
    s.exmem.instr.isLw = false := by
  rw [← Bool.not_eq_true]
  intro lw
  have stall : s.stall = true := by
    rw [State.stall, stallFor_iff, slot, ← dest_of_isLw lw]
    exact ⟨lw, r, mem_srcsOf_of_used used _, dest⟩
  exact absurd stall (by simp [noStall])

/-- An instruction that writes a register without loading it is no LW. -/
theorem not_isLw_of_not_loads {slot : Slot} {r : RegIdx} (dest : slot.dest = some r) (noLoad : ¬ slot.loads r = true) :
    slot.isLw = false := by
  rw [← Bool.not_eq_true]
  exact fun lw => noLoad ((loads_iff slot r).2 ⟨lw, (dest_of_isLw lw).symm.trans dest⟩)

/-- What no older slot writes is not forwarded. -/
theorem fwd_of_no_producer {s : State} {r : RegIdx} (raw : Word) (exmem : s.exmem.instr.dest ≠ some r)
    (memwb : s.memwb.instr.dest ≠ some r) (wbend : s.wbend.instr.dest ≠ some r) : s.fwd r raw = raw := by
  rcases fwd_cases s r raw with ⟨dest, -⟩ | ⟨dest, -⟩ | ⟨dest, -⟩ | ⟨-, -, -, none⟩
  · exact absurd dest exmem
  · exact absurd dest memwb
  · exact absurd dest wbend
  · exact none

/-- With a load in MEM/WB and no producer in front of it, both readings forward the load's word. -/
theorem fwd_of_load_in_memwb {s : State} {r : RegIdx} (raw : Word) (exmem : s.exmem.instr.dest ≠ some r)
    (loads : s.memwb.instr.loads r = true) : s.fwd r raw = s.memwb.writeData := by
  simp [State.fwd, State.fwdOverride, State.fwdYoungest, exmem, loads, dest_of_loads loads]

end Sys2Proof.Machine

namespace Sys2Proof

open Sys2Proof.Machine

/-- Settles O26, by the chain of tests of each reading. -/
theorem forwardingTakesTheYoungestProducer : Obligations.ForwardingTakesTheYoungestProducer := by
  intro s r raw
  constructor
  · intro default
    rw [State.fwd, default]
    refine ⟨fun exmem => ?_, fun exmem memwb => ?_, fun exmem memwb wbend => ?_, fun exmem memwb wbend => ?_⟩
    · simp [State.fwdYoungest, exmem]
    · simp [State.fwdYoungest, exmem, memwb]
    · simp [State.fwdYoungest, exmem, memwb, wbend]
    · simp [State.fwdYoungest, exmem, memwb, wbend]
  · intro override
    simp only [← loads_iff]
    rw [State.fwd, override]
    refine ⟨fun memwb => ?_, fun memwb wbend => ?_, fun memwb wbend => ?_⟩
    · simp [State.fwdOverride, memwb]
    · simp [State.fwdOverride, memwb, wbend]
    · simp only [State.fwdOverride, memwb, wbend, if_true]
      rfl

/-- Settles O27: a load wins under the override and loses under the default only behind a younger producer, which without a
stall is no load into a register that is read. -/
theorem forwardingReadingsDifferOnlyBehindAnOlderLoad : Obligations.ForwardingReadingsDifferOnlyBehindAnOlderLoad := by
  intro s w r raw slot used noStall differ
  have exmem_alu := not_loads_of_used slot used noStall
  by_cases memwb : s.memwb.instr.loads r = true
  · have exmem : s.exmem.instr.dest = some r := by
      by_contra exmem
      exact differ (by simp [State.fwdOverride, State.fwdYoungest, exmem, memwb, dest_of_loads memwb])
    exact .inl ⟨memwb, exmem, exmem_alu exmem⟩
  · have wbend : s.wbend.instr.loads r = true := by
      by_contra wbend
      exact differ (by simp [State.fwdOverride, memwb, wbend])
    by_cases exmem : s.exmem.instr.dest = some r
    · exact .inr ⟨wbend, .inl ⟨exmem, exmem_alu exmem⟩⟩
    · have dest : s.memwb.instr.dest = some r := by
        by_contra dest
        exact differ (by simp [State.fwdOverride, State.fwdYoungest, exmem, memwb, wbend, dest, dest_of_loads wbend])
      exact .inr ⟨wbend, .inr ⟨dest, not_isLw_of_not_loads dest memwb⟩⟩

/-- Settles O28: the registers that an opcode reads are among the word's two register fields. -/
theorem fieldsReadingStallsWheneverUsedDoes : Obligations.FieldsReadingStallsWheneverUsedDoes := by
  intro s slot stall
  rw [stallFor_iff] at stall ⊢
  obtain ⟨lw, r, source, loaded⟩ := stall
  refine ⟨lw, r, ?_, loaded⟩
  cases slot with
  | ff a => exact source
  | word w =>
    rw [Slot.srcs]
    exact mem_srcsOf_of_used source _

/-- Settles O30: a stall needs an LW in EX/MEM, a taken branch a BEQ. -/
theorem stallAndTakenBranchExclude : Obligations.StallAndTakenBranchExclude := by
  rintro s ⟨stall, taken⟩
  exact absurd taken (by simp [not_taken_of_stall stall])

end Sys2Proof
end

section
/-! The three kinds of a committed cycle (40_pipeline.md R131 to R156): a stall, a taken branch, and the ordinary one. -/

namespace Sys2Proof.Machine

/-- A bubble writes no register. -/
theorem bubble_dest_ne (r : RegIdx) : Slot.bubble.dest ≠ some r := by simp

/-- The ALU function of a slot is the one that R140 lists by opcode. -/
theorem alu_eq_aluValue (w a b offset : Word) : (Slot.word w).alu a b offset = AluValue w a b offset := by
  rw [Slot.alu, AluValue, ← opcode_decode]
  obtain ⟨i, decoded, -, -, wf⟩ := exec_decode_cases w
  rw [decoded]
  cases i with
  | add | nand | lw | sw | beq | jalr | halt | noop => rfl
  | data31 op | data30 op | data29 op | data28 op | data27 op | data26 op | data25 op =>
    have ge8 : 8 ≤ op.toNat := ge8_of_topBitIs (by decide) wf
    have ne : ∀ k : OpField, k.toNat < 8 → op ≠ k := by
      rintro k small rfl
      omega
    simp [Instr.opcode, aluOf, aluNone, ne]

/-- What EXECUTE leaves of a word: its two register fields are forwarded (R140). -/
theorem executed_of_word {s : State} {w : Word} (slot : s.idex.instr = .word w) :
    s.executed =
      { instr := .word w
        branchTarget := s.idex.pcPlus1 + s.idex.offset
        aluResult := AluValue w (s.fwd (fAOf w) s.idex.readRegA) (s.fwd (fBOf w) s.idex.readRegB) s.idex.offset
        storeData := s.fwd (fAOf w) s.idex.readRegA } := by
  rw [State.executed, slot, alu_eq_aluValue]
  rfl

/-- With a bubble in EX/MEM a cycle neither stalls nor branches. -/
theorem ordinary_of_bubble {s : State} (bubble : s.exmem.instr = .bubble) :
    s.stall = false ∧ s.taken = false :=
  ⟨stall_of_not_lw (by rw [bubble, bubble_isLw]), taken_of_not_beq (by rw [bubble, bubble_isBeq])⟩

end Sys2Proof.Machine

namespace Sys2Proof

open Sys2Proof.Machine

/-- Settles O37: the fields of `afterCycle` that do not depend on the kind of the cycle. -/
theorem commitIncrementsCycles : Obligations.CommitIncrementsCycles := by
  intro s commits
  obtain ⟨-, run, -⟩ := commits_spec commits
  exact ⟨_, step_commits commits, rfl, rfl, rfl, run⟩

/-- Settles O58: the ordinary kind of `afterCycle`, with the slot of each stage taken apart. -/
theorem ordinaryCycleMovesEveryLatch : Obligations.OrdinaryCycleMovesEveryLatch := by
  intro s t commits stall taken edge
  obtain ⟨ifid, idex, exmem⟩ := afterCycle_of_ordinary stall taken
  rw [eq_afterCycle commits edge, ifid, idex, exmem, ← inRange_iff_toInt]
  refine ⟨fun inside => ?_, fun outside => ?_, fun w slot => ?_, fun a slot => ?_, fun w => executed_of_word,
    fun a slot => ?_, rfl, rfl⟩
  · rw [State.fetchSlot, if_pos inside, State.imemRead]
  · rw [State.fetchSlot, if_neg outside]
  · rw [slot, decodeStage]
  · rw [slot, decodeStage]
  · rw [State.executed, slot]
    exact ⟨rfl, rfl, rfl⟩

/-- Settles O29: the stall kind of `afterCycle`; behind its bubble the load is alone with its register. -/
theorem stallHoldsTheFrontAndDeliversTheLoad : Obligations.StallHoldsTheFrontAndDeliversTheLoad := by
  intro s t commits stall edge
  obtain ⟨ifid, idex, exmem⟩ := afterCycle_of_stall stall
  have lw := isLw_of_stall stall
  rw [eq_afterCycle commits edge]
  have bubble : s.afterCycle.exmem.instr = .bubble := by rw [exmem, exmem_bubble_instr]
  obtain ⟨noStall, -⟩ := ordinary_of_bubble bubble
  refine ⟨?_, ifid, idex, exmem, ?_, ?_, ?_, noStall, fun r raw dest => ?_⟩
  · simp [afterCycle_pc, stall, not_taken_of_stall stall]
  · rw [afterCycle_memwb, memValue_of_lw lw]
  · simp [afterCycle_retired, stall]
  · rw [afterCycle_fetched, stall]
    cases s.params.fetchCountOnStall <;> rfl
  · have loads : s.exmem.instr.loads r = true := (loads_iff ..).2 ⟨lw, (dest_of_isLw lw).symm.trans dest⟩
    rw [fwd_of_load_in_memwb raw (by rw [bubble]; exact bubble_dest_ne r) loads, afterCycle_memwb, memValue_of_lw lw]

/-- Settles O33: the taken kind of `afterCycle`. -/
theorem takenBranchFlushesThreeLatches : Obligations.TakenBranchFlushesThreeLatches := by
  intro s t commits beq zero edge
  have taken : s.taken = true := (taken_iff s).2 ⟨beq, zero⟩
  have stall := not_stall_of_taken taken
  obtain ⟨noLw, noSw⟩ := no_access_of_isBeq beq
  obtain ⟨ifid, idex, exmem⟩ := afterCycle_of_taken taken
  rw [eq_afterCycle commits edge]
  refine ⟨?_, ifid, idex, exmem, ?_, rfl, fun r dest => ?_, memAfter_of_not_sw noSw, ?_, ?_, ?_, ?_⟩
  · simp [afterCycle_pc, taken]
  · rw [afterCycle_memwb, memValue_of_not_lw noLw, zero]
  · rw [afterCycle_regs, dest, RegFile.writeDest_some]
  · simp [afterCycle_mispred, taken]
  · simp [afterCycle_notTaken, taken]
  · simp [afterCycle_retired, stall, taken]
  · simp [afterCycle_fetched, stall]

/-- Settles O34: a BEQ not taken makes an ordinary cycle, and counts. -/
theorem notTakenBranchOnlyCounts : Obligations.NotTakenBranchOnlyCounts := by
  intro s t commits beq nonzero edge
  have taken : s.taken = false := by
    rw [← Bool.not_eq_true, taken_iff]
    exact fun ⟨_, zero⟩ => nonzero zero
  obtain ⟨noLw, noSw⟩ := no_access_of_isBeq beq
  have stall := stall_of_not_lw noLw
  obtain ⟨ifid, idex, exmem⟩ := afterCycle_of_ordinary stall taken
  obtain ⟨-, run, -⟩ := commits_spec commits
  rw [eq_afterCycle commits edge]
  refine ⟨?_, ?_, ?_, run, rfl, ?_, rfl, fun r => ?_, ifid, ?_, ?_, memAfter_of_not_sw noSw, ?_, ?_⟩
  · simp [afterCycle_notTaken, beq, taken]
  · simp [afterCycle_mispred, taken]
  · simp [afterCycle_pc, stall, taken]
  · rw [afterCycle_memwb, memValue_of_not_lw noLw]
  · rw [afterCycle_regs, RegFile.read_writeDest]
  · rw [idex, decodeStage_idex_instr]
  · rw [exmem, State.executed]
  · simp [afterCycle_retired, stall, taken]
  · simp [afterCycle_fetched, stall]

end Sys2Proof
end

section
/-! Several cycles in a row: behind a taken branch (40_pipeline.md R156), around a load-use stall (70_reset_and_hazards.md R345),
and with a fetch outside memory (40_pipeline.md R133, R135). -/

namespace Sys2Proof.Machine

/-- A cycle with a bubble in EX/MEM makes no access, so one that runs commits (R146). -/
theorem commits_of_bubble {s : State} (runs : s.cycleRuns = true) (bubble : s.exmem.instr = .bubble) : s.commits = true :=
  (commits_iff s).2 ⟨runs, memFaults_of_no_access (by rw [bubble, bubble_isLw]) (by rw [bubble, bubble_isSw])⟩

/-- A core that runs on after a cycle has committed it: the fault of a memory stage leaves RUNNING (R302). -/
theorem commits_of_runs_on {s t : State} (runs : s.cycleRuns = true) (edge : step s = .next t) (on : t.cycleRuns = true) :
    s.commits = true := by
  refine (commits_iff s).2 ⟨runs, ?_⟩
  rw [← Bool.not_eq_true]
  intro faults
  obtain ⟨w, -, -, fatal⟩ := step_memFaults runs faults
  obtain ⟨-, run, -⟩ := (cycleRuns_iff t).1 on
  rw [next_unique fatal edge] at run
  exact nomatch run

/-- Behind a bubble in EX/MEM a committed cycle moves the front on by one slot. -/
theorem afterCycle_front_of_bubble {s : State} (bubble : s.exmem.instr = .bubble) :
    s.afterCycle.idex.instr = s.ifid.instr ∧ s.afterCycle.exmem.instr = s.idex.instr := by
  obtain ⟨stall, taken⟩ := ordinary_of_bubble bubble
  obtain ⟨-, idex, exmem⟩ := afterCycle_of_ordinary stall taken
  rw [idex, exmem, decodeStage_idex_instr]
  exact ⟨rfl, rfl⟩

/-- The cycle after a cycle runs unless a HALT or a tag has come to MEM/WB. -/
theorem cycleRuns_afterCycle {s : State} (commits : s.commits = true) (noHalt : s.exmem.instr.isHalt = false)
    (noTag : s.exmem.instr.isTag = false) : s.afterCycle.cycleRuns = true := by
  obtain ⟨rst, run, -⟩ := commits_spec commits
  exact (cycleRuns_iff _).2 ⟨rst, run, noHalt, noTag⟩

theorem no_halt_of_isBeq {slot : Slot} (beq : slot.isBeq = true) : slot.isHalt = false ∧ slot.isTag = false := by
  cases slot with
  | ff a => simp [Slot.isBeq] at beq
  | word w => simp [Slot.isHalt, Slot.isTag, isOpcode, (isOpcode_iff w 4#10).1 beq]

/-- Three edges from a drained pipeline, whatever the pc: only fetch, decode and execute do work. -/
theorem steps_three_of_drained {s : State} (rst : s.rst = false) (run : s.run = .running) (drained : s.drained = true) :
    steps 3 s = .next s.afterThree ∧ s.afterThree.exmem.instr = s.fetchSlot := by
  simp only [State.drained, Bool.and_eq_true, decide_eq_true_eq] at drained
  obtain ⟨⟨⟨⟨ifid, idex⟩, exmem⟩, memwb⟩, wbend⟩ := drained
  have quiet0 : Quiet s := ⟨rst, run, exmem, memwb, wbend⟩
  have quiet1 : Quiet s.afterQuiet := quiet0.afterQuiet idex
  have quiet2 : Quiet s.afterQuiet.afterQuiet := quiet1.afterQuiet ((decodeStage_idex_instr ..).trans ifid)
  constructor
  · rw [steps_succ quiet0.step_eq, steps_succ quiet1.step_eq, steps_succ quiet2.step_eq]
    rfl
  · exact decodeStage_idex_instr ..

/-- A slot that is decoded and not flushed brings its register reads with it (R137). -/
theorem readRegs_of_decoded {s : State} {w : Word} (stall : s.stall = false) (taken : s.taken = false)
    (slot : s.afterCycle.idex.instr = .word w) :
    s.afterCycle.idex.readRegA = s.regs.read (fAOf w) ∧ s.afterCycle.idex.readRegB = s.regs.read (fBOf w) := by
  obtain ⟨-, idex, -⟩ := afterCycle_of_ordinary stall taken
  rw [idex, decodeStage_idex_instr] at slot
  rw [idex, slot]
  exact ⟨rfl, rfl⟩

/-- An LW comes to EX/MEM in an ordinary cycle only: a stall and a taken branch bring a bubble. -/
theorem ordinary_of_isLw_afterCycle {s : State} (lw : s.afterCycle.exmem.instr.isLw = true) :
    s.stall = false ∧ s.taken = false := by
  constructor
  · rw [← Bool.not_eq_true]
    intro stall
    obtain ⟨-, -, bubble⟩ := afterCycle_of_stall stall
    simp [bubble] at lw
  · rw [← Bool.not_eq_true]
    intro taken
    obtain ⟨-, -, bubble⟩ := afterCycle_of_taken taken
    simp [bubble] at lw

end Sys2Proof.Machine

namespace Sys2Proof

open Sys2Proof.Machine

/-- Settles O35: the branch leaves bubbles in the three younger latches, which come to EX/MEM one by one. -/
theorem threeBubblesFollowATakenBranch : Obligations.ThreeBubblesFollowATakenBranch := by
  intro s a b c commits taken edge edge' edge''
  obtain ⟨beq, -⟩ := (taken_iff s).1 taken
  obtain ⟨noHalt, noTag⟩ := no_halt_of_isBeq beq
  obtain ⟨ifid, idex, exmem⟩ := afterCycle_of_taken taken
  obtain rfl := eq_afterCycle commits edge
  have bubble : s.afterCycle.exmem.instr = .bubble := by rw [exmem, exmem_bubble_instr]
  have commits' := commits_of_bubble (cycleRuns_afterCycle commits noHalt noTag) bubble
  obtain ⟨front, middle⟩ := afterCycle_front_of_bubble bubble
  obtain rfl := eq_afterCycle commits' edge'
  have bubble' : s.afterCycle.afterCycle.exmem.instr = .bubble := by rw [middle, idex, idex_bubble_instr]
  have runs := cycleRuns_afterCycle commits' (by rw [bubble, bubble_isHalt]) (by rw [bubble, bubble_isTag])
  obtain ⟨-, middle'⟩ := afterCycle_front_of_bubble bubble'
  obtain rfl := eq_afterCycle (commits_of_bubble runs bubble') edge''
  have bubble'' : s.afterCycle.afterCycle.afterCycle.exmem.instr = .bubble := by
    rw [middle', front, ifid, ifid_bubble_instr]
  exact ⟨⟨bubble, ordinary_of_bubble bubble⟩, ⟨bubble', ordinary_of_bubble bubble'⟩, bubble'', ordinary_of_bubble bubble''⟩

/-- Settles O56: the tag passes EX/MEM without an access, and the clock of the fifth edge finds it in MEM/WB. -/
theorem fetchOutOfRangeFaultsAfterFourCycles : Obligations.FetchOutOfRangeFaultsAfterFourCycles := by
  intro s rst run drained outside
  obtain ⟨three, fetched⟩ := steps_three_of_drained rst run drained
  have tag : s.afterThree.exmem.instr = .ff s.pc := by
    rw [fetched, State.fetchSlot, inRange_eq_false_of outside]
    rfl
  have noSw : s.afterThree.exmem.instr.isSw = false := by rw [tag]; rfl
  have commits : s.afterThree.commits = true :=
    commits_of_no_access rst run (afterThree_memwb_instr s) (by rw [tag]; rfl) noSw
  have fatal := step_tag (s := s.afterThree.afterCycle) rst run tag
  refine ⟨_, steps_then (steps_then three (step_commits commits)) fatal, rfl, ?_, afterThree_afterCycle_cycles s,
    afterThree_afterCycle_regs s, memAfter_of_not_sw noSw⟩
  rw [raiseFatal_fault, afterThree_afterCycle_cycles]

/-- Settles O31: the consumer was decoded in the cycle of `p`, whose writeback goes to the register file behind it; at the stall
it keeps what it read, and after the stall no latch has the register as a destination. -/
theorem operandIsStaleAfterALoadUseStall : Obligations.OperandIsStaleAfterALoadUseStall := by
  intro p s t c r runs edge runs' edge' runs'' stall slot _ wbend exmem memwb
  have commits := commits_of_runs_on runs edge runs'
  obtain rfl := eq_afterCycle commits edge
  obtain ⟨older_stall, older_taken⟩ := ordinary_of_isLw_afterCycle (isLw_of_stall stall)
  obtain ⟨readA, readB⟩ := readRegs_of_decoded older_stall older_taken slot
  have written : p.afterCycle.regs.read r = p.afterCycle.wbend.writeData := by
    rw [afterCycle_wbend] at wbend ⊢
    rw [afterCycle_regs, RegFile.read_writeDest, if_pos wbend]
  obtain rfl := eq_afterCycle (commits_of_runs_on runs' edge' runs'') edge'
  obtain ⟨-, held, exmem_bubble⟩ := afterCycle_of_stall stall
  have bubble : p.afterCycle.afterCycle.exmem.instr = .bubble := by rw [exmem_bubble, exmem_bubble_instr]
  have stale : ∀ raw, p.afterCycle.afterCycle.fwd r raw = raw := fun raw =>
    fwd_of_no_producer raw (by rw [bubble]; exact bubble_dest_ne r) exmem memwb
  have slot' : p.afterCycle.afterCycle.idex.instr = .word c := by rw [held, slot]
  have operandA : fAOf c = r → p.afterCycle.afterCycle.operandA (.word c) = p.regs.read r := by
    rintro rfl
    exact (stale _).trans ((congrArg IDEX.readRegA held).trans readA)
  have operandB : fBOf c = r → p.afterCycle.afterCycle.operandB (.word c) = p.regs.read r := by
    rintro rfl
    exact (stale _).trans ((congrArg IDEX.readRegB held).trans readB)
  obtain ⟨noStall, notTaken⟩ := ordinary_of_bubble bubble
  obtain ⟨-, -, executed⟩ := afterCycle_of_ordinary noStall notTaken
  rw [State.executed, slot'] at executed
  refine ⟨written, slot', operandA, operandB, _, step_commits (commits_of_bubble runs'' bubble), ?_⟩
  rw [executed]
  refine ⟨rfl, operandA, fun field access => ?_⟩
  rw [alu_of_access access, aluAddress, operandB field]

end Sys2Proof
end

section
/-! The model's form of a cycle (40_pipeline.md section 1): `exec` answers a next state in every turn, and the step is the
turns of five decoded instructions. -/

namespace Sys2Proof.Machine

/-- What no turn writes: instruction memory (R83), the input, the parameters and the turn itself. -/
structure SameInputs (s t : State) : Prop where
  imem : t.imem = s.imem
  rst : t.rst = s.rst
  params : t.params = s.params
  stage : t.stage = s.stage

section
variable (slot : Slot) (s : State)

theorem SameInputs.refl : SameInputs s s := ⟨rfl, rfl, rfl, rfl⟩

theorem sameInputs_fetchStage : SameInputs s (fetchStage slot s) := ⟨rfl, rfl, rfl, rfl⟩

theorem sameInputs_decodeStage : SameInputs s (decodeStage slot s) := ⟨rfl, rfl, rfl, rfl⟩

theorem sameInputs_executeStage (alu : Word → Word → Word → Word) : SameInputs s (executeStage slot alu s) := by
  rcases executeStage_cases slot alu s with ⟨-, e⟩ | ⟨-, e⟩ <;> exact e ▸ ⟨rfl, rfl, rfl, rfl⟩

theorem sameInputs_memoryPass : SameInputs s (memoryPass slot s) := ⟨rfl, rfl, rfl, rfl⟩

theorem sameInputs_memoryLoad (w : Word) : SameInputs s (memoryLoad w s) := by
  rcases memoryLoad_cases w s with ⟨-, e⟩ | ⟨-, e⟩ <;> exact e ▸ ⟨rfl, rfl, rfl, rfl⟩

theorem sameInputs_memoryStore (w : Word) : SameInputs s (memoryStore w s) := by
  rcases memoryStore_cases w s with ⟨-, e⟩ | ⟨-, e⟩ <;> exact e ▸ ⟨rfl, rfl, rfl, rfl⟩

theorem sameInputs_memoryBranch : SameInputs s (memoryBranch slot s) := by
  rcases memoryBranch_cases slot s with ⟨-, e⟩ | ⟨-, e⟩ <;> exact e ▸ ⟨rfl, rfl, rfl, rfl⟩

theorem sameInputs_writebackStage (dest : Option RegIdx) : SameInputs s (writebackStage slot dest s) :=
  ⟨rfl, rfl, rfl, rfl⟩

/-- The form of every meaning but HALT's and the tag's: they differ in the ALU function, the memory stage and the destination. -/
def slotTurn (alu : Word → Word → Word → Word) (memory : State) (dest : Option RegIdx) : State :=
  match s.stage with
  | .clock => s
  | .fetch => fetchStage slot s
  | .decode => decodeStage slot s
  | .execute => executeStage slot alu s
  | .memory => memory
  | .writeback => writebackStage slot dest s

theorem noEffect_eq_slotTurn : noEffect slot s = slotTurn slot s aluNone (memoryPass slot s) none := rfl

variable {slot s}

theorem sameInputs_slotTurn {alu : Word → Word → Word → Word} {memory : State} {dest : Option RegIdx}
    (memory_same : SameInputs s memory) : SameInputs s (slotTurn slot s alu memory dest) := by
  unfold slotTurn
  split
  · exact .refl s
  · exact sameInputs_fetchStage slot s
  · exact sameInputs_decodeStage slot s
  · exact sameInputs_executeStage slot s alu
  · exact memory_same
  · exact sameInputs_writebackStage slot s dest

theorem sameInputs_noEffect : SameInputs s (noEffect slot s) := by
  rw [noEffect_eq_slotTurn]
  exact sameInputs_slotTurn (sameInputs_memoryPass slot s)

end

/-- Every turn of every term, one that stands for no word too. -/
theorem exec_sameInputs (i : Instr) (s : State) : ∃ t, exec i s = .next t ∧ SameInputs s t := by
  cases i with
  | add | nand => exact ⟨_, rfl, sameInputs_slotTurn (sameInputs_memoryPass _ s)⟩
  | lw => exact ⟨_, rfl, sameInputs_slotTurn (sameInputs_memoryLoad s _)⟩
  | sw => exact ⟨_, rfl, sameInputs_slotTurn (sameInputs_memoryStore s _)⟩
  | beq => exact ⟨_, rfl, sameInputs_slotTurn (sameInputs_memoryBranch _ s)⟩
  | halt =>
    refine ⟨_, rfl, ?_⟩
    split
    · exact ⟨rfl, rfl, rfl, rfl⟩
    all_goals exact sameInputs_noEffect
  | jalr | noop | data31 | data30 | data29 | data28 | data27 | data26 | data25 =>
    exact ⟨_, rfl, sameInputs_noEffect⟩

/-- A slot's turn is `exec` of the instruction its word decodes to. -/
theorem runSlot_word {turn : Stage} {w : Word} {s t : State} (answer : exec (decode w) { s with stage := turn } = .next t) :
    runSlot turn (.word w) s = .next { t with stage := s.stage } := by
  rw [runSlot, answer, andThen_next]

end Sys2Proof.Machine

namespace Sys2Proof

open Sys2Proof.Machine

/-- Settles O1: each row of the opcode map selects itself again. -/
theorem decodeOfEncode : Obligations.DecodeOfEncode := fun _ wf => decode_encode_of_wf wf

/-- Settles O5: ten closed words. -/
theorem specWordsDecode : Obligations.SpecWordsDecode := by
  unfold Obligations.SpecWordsDecode
  decide

/-- Settles O19, by the turns of each constructor. -/
theorem everyInstructionAnswersANextState : Obligations.EveryInstructionAnswersANextState := by
  intro i s
  obtain ⟨t, answer, imem, rst, params, stage⟩ := exec_sameInputs i s
  exact ⟨t, answer, imem, rst, params, stage⟩

/-- Settles O9: each of the five slots is a word, whose turn is `exec` of its instruction. -/
theorem stepRunsTheDecodedInstructions : Obligations.StepRunsTheDecodedInstructions := by
  intro s f d e m w w1 w2 w3 w4 runs inside ifid idex exmem memwb fetch decode execute memory writeback
  have slot : s.fetchSlot = .word (s.imemRead s.pc) := by rw [State.fetchSlot, if_pos inside]
  rw [step_cycle runs, runStages, slot, ifid, idex, exmem, memwb, runSlot_word fetch, andThen_next, runSlot_word decode,
    andThen_next, runSlot_word execute, andThen_next, runSlot_word memory, andThen_next, runSlot_word writeback,
    andThen_next]

end Sys2Proof
end
